-- ==== Sys2Proof/Word.lean ====
section
/-! DEFINITION. The two value widths of the CORE (spec 10_state.md R20, R22, R23; 00_scope.md R5). Fixed widths
make the masking law of R24 a fact of the types: no register can hold a value outside its range. -/

namespace Sys2Proof

/-- An 8-bit register value or a bus data value, 0..255 (R20, R41, R42). -/
abbrev Byte := BitVec 8

/-- A 16-bit value: PC, SP or a register pair, 0..65535 (R21, R22, R23). -/
abbrev Word := BitVec 16

end Sys2Proof
end

