-- ==== Sys2Proof/Machine/Flags.lean ====
section
/-! DEFINITION. The flag register F and every flag and rotate computation of the spec (10_state.md R25-R28; 00_scope.md
R9; 42_alu.md; 43_rotate_bit.md). F is a byte, so its stored bits 3..0 survive every write of one flag. -/

namespace Sys2Proof.Machine

/-- Bit `n` of a byte set to `v`, every other bit kept (R9). -/
def withBit (n : Nat) (v : Bool) (x : Byte) : Byte :=
  if v then x ||| BitVec.twoPow 8 n else x &&& ~~~BitVec.twoPow 8 n

/-- `F.Z`, bit 7 (R25). -/
def flagZ (f : Byte) : Bool := f.getLsbD 7
/-- `F.N`, bit 6. -/
def flagN (f : Byte) : Bool := f.getLsbD 6
/-- `F.H`, bit 5. -/
def flagH (f : Byte) : Bool := f.getLsbD 5
/-- `F.C`, bit 4. -/
def flagC (f : Byte) : Bool := f.getLsbD 4

/-- `F.Z <- v`. -/
def withZ (v : Bool) (f : Byte) : Byte := withBit 7 v f
/-- `F.N <- v`. -/
def withN (v : Bool) (f : Byte) : Byte := withBit 6 v f
/-- `F.H <- v`. -/
def withH (v : Bool) (f : Byte) : Byte := withBit 5 v f
/-- `F.C <- v`. -/
def withC (v : Bool) (f : Byte) : Byte := withBit 4 v f

/-- The Z of DEC B and RL C: set when the result is NOT zero, the polarity the source gives (R112, R122; D9). -/
def zOfNonZero (result : Byte) : Bool := decide (result ≠ 0)

/-- The flags after DEC B: Z from the result, N, H, C and bits 3..0 kept (R112, D16). -/
def flagsAfterDec (result f : Byte) : Byte := withZ (zOfNonZero result) f

/-- The flags after XOR A: Z is 1, every other bit kept (R113, D11, D16). -/
def flagsAfterXor (f : Byte) : Byte := withZ true f

/-- The flags after RLC A and RLA: C is the bit shifted out, every other bit kept (R120, R121, D16). -/
def flagsAfterRotateA (carryOut : Bool) (f : Byte) : Byte := withC carryOut f

/-- The flags after RL C: F is cleared whole, then C is the bit shifted out and Z is set when the result is not zero
(R122). The old F has no part in it. -/
def flagsAfterRlC (carryOut : Bool) (result : Byte) : Byte := withZ (zOfNonZero result) (withC carryOut 0)

/-- The flags after BIT 7: Z is the tested bit, N is 0, H is 1, C and bits 3..0 kept (R123; 90_conflicts.md C10). -/
def flagsAfterBit (tested : Bool) (f : Byte) : Byte := withZ tested (withH true (withN false f))

/-- Bit 7, which a left rotate shifts out (R120-R122). -/
def carryOutLeft (x : Byte) : Bool := x.getLsbD 7

/-- `((x << 1) & 0xFF) | bit0`: the left shift by one that all three rotates share (R120-R122, R124). -/
def shiftLeftIn (bit0 : Bool) (x : Byte) : Byte := (x <<< 1) ||| (if bit0 then 1 else 0)

end Sys2Proof.Machine
end

