-- ==== Sys2Proof/Syntax.lean ====
section
/-! DEFINITION. The instruction set as syntax: one constructor of `Instr` per row of opcode_table.json
(30_encoding.md R65, R66), the operand formats (R61) and the instruction with its operand written out (R70).

An `Instr` names a RULE of the spec's dispatch tables. The opcode selects the whole operation (R61), and a rule reads
its own immediate bytes at PC when it runs (40_fetch_decode.md R84), or does not read them at all (CALL Z not taken,
45_control.md R143): so the immediate is no argument of the rule. Where an immediate is part of what is written down,
in the encoding and the assembly syntax, it stands beside the rule in `AsmInstr` (log entry 10). -/

namespace Sys2Proof

/-- The 24 instructions of the CORE, in the order of opcode_table.json. -/
inductive Instr where
  /-- RLC A, 0x04 (R120; 90_conflicts.md C1: the source's mnemonic column says INC B). -/
  | rlcA
  /-- DEC B, 0x05 (R112). -/
  | decB
  /-- LD B,u8, 0x06 (R90). -/
  | ldBU8
  /-- INC C, 0x0C (R111). -/
  | incC
  /-- LD C,u8, 0x0E (R91). -/
  | ldCU8
  /-- LD DE,u16, 0x11 (R93). -/
  | ldDeU16
  /-- RLA, 0x17 (R121). -/
  | rla
  /-- LD A,(DE), 0x1A (R96). -/
  | ldADe
  /-- JR NZ,r8, 0x20 (R141). -/
  | jrNzR8
  /-- LD HL,u16, 0x21 (R94). -/
  | ldHlU16
  /-- LD SP,u16, 0x31 (R95). -/
  | ldSpU16
  /-- LD (HL-),A, 0x32 (R97). -/
  | ldHldA
  /-- LD A,u8, 0x3E (R92). -/
  | ldAU8
  /-- LD C,A, 0x4F (R99). -/
  | ldCA
  /-- LD (HL),A, 0x77 (R98). -/
  | ldHlA
  /-- XOR A, 0xAF (R113). -/
  | xorA
  /-- POP BC, 0xC1 (R131). -/
  | popBc
  /-- PUSH BC, 0xC5 (R130). -/
  | pushBc
  /-- CALL Z,a16, 0xCC (R143). -/
  | callZA16
  /-- CALL a16, 0xCD (R142). -/
  | callA16
  /-- LDH (u8),A, 0xE0 (R100). -/
  | ldhU8A
  /-- LDH (C),A, 0xE2 (R101). -/
  | ldhCA
  /-- RL C, 0xCB 0x11 (R122). -/
  | rlC
  /-- BIT 7,H, 0xCB 0x7C (R123). -/
  | bit7H
deriving DecidableEq, Repr

/-- The two 256-entry dispatch tables (R65, R66; 40_fetch_decode.md R82, R83). -/
inductive OpTable where
  | primary
  | cb
deriving DecidableEq, Repr

/-- The encoding formats of R61. -/
inductive Format where
  | op
  | opU8
  | opR8
  | opU16
  | cb
deriving DecidableEq, Repr

/-- An immediate operand as the assembly syntax writes it (R62, R63, R64, R70): numbers, whose ranges `WellFormed`
checks. -/
inductive Operand where
  /-- No immediate (formats OP and CB). -/
  | none
  /-- u8: an unsigned byte (R62). -/
  | u8 (n : Nat)
  /-- r8: a signed offset, unscaled (R63). -/
  | r8 (offset : Int)
  /-- u16 or a16: a little-endian word (R64). -/
  | u16 (v : Nat)
deriving DecidableEq, Repr

/-- An instruction with its operand written out: what an assembler takes and `encode` turns into bytes. -/
structure AsmInstr where
  instr   : Instr
  operand : Operand
deriving DecidableEq, Repr

end Sys2Proof
end

