-- ==== Sys2Proof/Decode.lean ====
section
/-! DEFINITION. Decoding and encoding: the byte-order and sign helpers (R6, R7, R45), the two dispatch tables (R65,
R66), the total decoder (R71), the encoder, the table words of opcode_table.json, and the assembly text (R70). -/

namespace Sys2Proof

/-! ### Byte order and sign (00_scope.md R6, R7) -/

/-- `lo | (hi << 8)`: a word from its two bytes (R21, R43, R64). -/
def wordOfBytes (lo hi : Byte) : Word := lo.setWidth 16 ||| (hi.setWidth 16 <<< 8)

/-- `v[7:0]`. -/
def loByte (v : Word) : Byte := v.extractLsb' 0 8

/-- `v[15:8]`. -/
def hiByte (v : Word) : Byte := v.extractLsb' 8 8

/-- `sext_8(b)`: `b - 256` if `b > 127`, else `b`, an integer in -128..127 (R7, R63). -/
def sext8 (b : Byte) : Int := if b.toNat > 127 then (b.toNat : Int) - 256 else (b.toNat : Int)

/-- The byte of a signed offset, `offset mod 256` (R63, R70). -/
def r8Byte (offset : Int) : Byte := BitVec.ofInt 8 offset

/-! ### The dispatch tables -/

/-- The prefix byte that selects the extended table (R69). -/
def cbPrefix : Byte := 0xCB

/-- The defined entries of the primary table, in the order of R65, less the prefix row 0xCB. -/
def primaryTable : List (Byte × Instr) :=
  [ (0x04, .rlcA), (0x05, .decB), (0x06, .ldBU8), (0x0C, .incC), (0x0E, .ldCU8), (0x11, .ldDeU16),
    (0x17, .rla), (0x1A, .ldADe), (0x20, .jrNzR8), (0x21, .ldHlU16), (0x31, .ldSpU16), (0x32, .ldHldA) ] ++
  [ (0x3E, .ldAU8), (0x4F, .ldCA), (0x77, .ldHlA), (0xAF, .xorA), (0xC1, .popBc), (0xC5, .pushBc),
    (0xCC, .callZA16), (0xCD, .callA16), (0xE0, .ldhU8A), (0xE2, .ldhCA) ]

/-- The defined entries of the extended table (R66). -/
def cbTable : List (Byte × Instr) := [ (0x11, .rlC), (0x7C, .bit7H) ]

/-- The entry of a table for a byte; `none` where no rule is defined (R67). -/
def lookupOpcode : List (Byte × Instr) → Byte → Option Instr
  | [], _ => none
  | (k, i) :: rest, b => if k = b then some i else lookupOpcode rest b

/-- Primary dispatch on the first byte, which is not the prefix (R82). -/
def decodePrimary (b : Byte) : Option Instr := lookupOpcode primaryTable b

/-- Extended dispatch on the byte after the prefix (R83). -/
def decodeCb (x : Byte) : Option Instr := lookupOpcode cbTable x

/-! ### Formats and lengths -/

/-- The format of each instruction (R61, R65, R66). -/
def Instr.format : Instr → Format
  | .rlcA => .op
  | .decB => .op
  | .ldBU8 => .opU8
  | .incC => .op
  | .ldCU8 => .opU8
  | .ldDeU16 => .opU16
  | .rla => .op
  | .ldADe => .op
  | .jrNzR8 => .opR8
  | .ldHlU16 => .opU16
  | .ldSpU16 => .opU16
  | .ldHldA => .op
  | .ldAU8 => .opU8
  | .ldCA => .op
  | .ldHlA => .op
  | .xorA => .op
  | .popBc => .op
  | .pushBc => .op
  | .callZA16 => .opU16
  | .callA16 => .opU16
  | .ldhU8A => .opU8
  | .ldhCA => .op
  | .rlC => .cb
  | .bit7H => .cb

/-- The length column of R61: 1, 2 or 3 bytes. -/
def Format.length : Format → Nat
  | .op => 1
  | .opU8 => 2
  | .opR8 => 2
  | .opU16 => 3
  | .cb => 2

/-- The length of an instruction in bytes (R65, R66). -/
def Instr.length (i : Instr) : Nat := i.format.length

/-- The length found from byte 0 alone (R68): the rule's length, 2 for the prefix whatever follows it, 1 for an
unimplemented primary byte. -/
def lengthFromFirst (b : Byte) : Nat :=
  if b = cbPrefix then 2
  else match decodePrimary b with
    | some i => i.length
    | none => 1

/-! ### The decoder -/

/-- What a byte sequence decodes to (R71): a rule of R65 or R66 with its operand, an unimplemented byte of one of the
two tables, or, for a FINITE list that ends inside an instruction, `truncated` (log entry 19). `rest` is what follows. -/
inductive Decoded where
  | insn (a : AsmInstr) (rest : List Byte)
  | unimplemented (table : OpTable) (byte : Byte) (rest : List Byte)
  | truncated
deriving DecidableEq, Repr

/-- The operand of a format from the bytes after the opcode (R61-R64); `none` if the list ends too soon. -/
def takeOperand : Format → List Byte → Option (Operand × List Byte)
  | .op, bs => some (.none, bs)
  | .cb, bs => some (.none, bs)
  | .opU8, n :: bs => some (.u8 n.toNat, bs)
  | .opU8, [] => none
  | .opR8, s :: bs => some (.r8 (sext8 s), bs)
  | .opR8, [] => none
  | .opU16, lo :: hi :: bs => some (.u16 (wordOfBytes lo hi).toNat, bs)
  | .opU16, [_] => none
  | .opU16, [] => none

/-- A defined rule together with the operand that follows its opcode. -/
def decodeOperand (i : Instr) (bs : List Byte) : Decoded :=
  match takeOperand i.format bs with
  | some (operand, rest) => .insn ⟨i, operand⟩ rest
  | none => .truncated

/-- The decoder (R71, R82, R83): total on every list of bytes. -/
def decode : List Byte → Decoded
  | [] => .truncated
  | b :: bs =>
    if b = cbPrefix then
      match bs with
      | [] => .truncated
      | x :: bs' =>
        match decodeCb x with
        | some i => decodeOperand i bs'
        | none => .unimplemented .cb x bs'
    else
      match decodePrimary b with
      | some i => decodeOperand i bs
      | none => .unimplemented .primary b bs

/-! ### The encoder -/

/-- The opcode byte or bytes of each instruction (R65, R66). -/
def opcodeBytes : Instr → List Byte
  | .rlcA => [0x04]
  | .decB => [0x05]
  | .ldBU8 => [0x06]
  | .incC => [0x0C]
  | .ldCU8 => [0x0E]
  | .ldDeU16 => [0x11]
  | .rla => [0x17]
  | .ldADe => [0x1A]
  | .jrNzR8 => [0x20]
  | .ldHlU16 => [0x21]
  | .ldSpU16 => [0x31]
  | .ldHldA => [0x32]
  | .ldAU8 => [0x3E]
  | .ldCA => [0x4F]
  | .ldHlA => [0x77]
  | .xorA => [0xAF]
  | .popBc => [0xC1]
  | .pushBc => [0xC5]
  | .callZA16 => [0xCC]
  | .callA16 => [0xCD]
  | .ldhU8A => [0xE0]
  | .ldhCA => [0xE2]
  | .rlC => [0xCB, 0x11]
  | .bit7H => [0xCB, 0x7C]

/-- The immediate bytes of an operand, low byte first (R45, R62-R64). -/
def operandBytes : Operand → List Byte
  | .none => []
  | .u8 n => [BitVec.ofNat 8 n]
  | .r8 offset => [r8Byte offset]
  | .u16 v => [loByte (BitVec.ofNat 16 v), hiByte (BitVec.ofNat 16 v)]

/-- The bytes of an instruction, in address order (R60, R61). -/
def encode (a : AsmInstr) : List Byte := opcodeBytes a.instr ++ operandBytes a.operand

/-! ### Words of opcode_table.json -/

/-- The low `n` bytes of `w`, the most significant first: opcode_table.json reads an instruction as one number with
byte 0 most significant (30_encoding.md R61; log entry 11). -/
def bytesMsbFirst : Nat → Nat → List Byte
  | 0, _ => []
  | n + 1, w => BitVec.ofNat 8 (w >>> (8 * n)) :: bytesMsbFirst n w

/-- The bytes, lowest address first, of a table word of `nbits` bits, followed by zero bytes up to the longest
instruction (3 bytes). -/
def tableBytes (nbits w : Nat) : List Byte := (bytesMsbFirst (nbits / 8) w ++ [0, 0, 0]).take 3

/-- The instruction that `decode` reads from a table word; `none` where it reads none. -/
def decodeTableWord (nbits w : Nat) : Option Instr :=
  match decode (tableBytes nbits w) with
  | .insn a _ => some a.instr
  | .unimplemented _ _ _ => none
  | .truncated => none

/-! ### Assembly text (30_encoding.md R70) -/

/-- The low `n` hexadecimal digits of `v`, most significant first. -/
def hexDigits : Nat → Nat → String
  | 0, _ => ""
  | n + 1, v => hexDigits n (v / 16) ++ String.singleton (Nat.digitChar (v % 16))

/-- An operand as R70 writes it: `0x` and hexadecimal digits, a JR offset as a signed number. -/
def Operand.text : Operand → String
  | .none => ""
  | .u8 n => "0x" ++ hexDigits 2 n
  | .r8 offset => toString offset
  | .u16 v => "0x" ++ hexDigits 4 v

/-- The assembly text of an instruction: the mnemonic and operands as R65 and R66 print them, with the operand in the
place of u8, u16, a16 or r8. -/
def AsmInstr.text (a : AsmInstr) : String :=
  match a.instr with
  | .rlcA => "RLC A"
  | .decB => "DEC B"
  | .ldBU8 => "LD B," ++ a.operand.text
  | .incC => "INC C"
  | .ldCU8 => "LD C," ++ a.operand.text
  | .ldDeU16 => "LD DE," ++ a.operand.text
  | .rla => "RLA"
  | .ldADe => "LD A,(DE)"
  | .jrNzR8 => "JR NZ," ++ a.operand.text
  | .ldHlU16 => "LD HL," ++ a.operand.text
  | .ldSpU16 => "LD SP," ++ a.operand.text
  | .ldHldA => "LD (HL-),A"
  | .ldAU8 => "LD A," ++ a.operand.text
  | .ldCA => "LD C,A"
  | .ldHlA => "LD (HL),A"
  | .xorA => "XOR A"
  | .popBc => "POP BC"
  | .pushBc => "PUSH BC"
  | .callZA16 => "CALL Z," ++ a.operand.text
  | .callA16 => "CALL " ++ a.operand.text
  | .ldhU8A => "LDH (" ++ a.operand.text ++ "),A"
  | .ldhCA => "LDH (C),A"
  | .rlC => "RL C"
  | .bit7H => "BIT 7,H"

/-- `JR NZ,target` at `addr` (R70): the operand is the distance from the address after the offset byte, and there is
none where it does not lie in -128..127. -/
def jrOperand (addr target : Nat) : Option Operand :=
  let distance : Int := (target : Int) - ((addr : Int) + 2)
  if -128 ≤ distance ∧ distance ≤ 127 then some (.r8 distance) else none

end Sys2Proof
end

