-- ==== Sys2Proof/Config.lean ====
section
/-! DEFINITION. What the spec leaves to the platform: the two OPEN parameters of 92_eei_decisions.md, BUS_ORACLE (D4)
and DRIVER_ON_UNIMPLEMENTED (D8), with the plain data they are stated over. -/

namespace Sys2Proof

/-- One transaction on the memory bus. The bus has these two and no other (20_memory.md R41, R42, R44); each moves
one byte (R48). -/
inductive BusAccess where
  /-- `readByte(addr)` answered with `value`. -/
  | read (addr : Nat) (value : Byte)
  /-- `writeByte(addr, value)`. -/
  | write (addr : Nat) (value : Byte)
deriving DecidableEq, Repr

/-- A range of bus addresses, `base` to `base + size - 1`, that the platform does not serve with RAM. -/
structure BusRegion where
  base : Nat
  size : Nat
deriving DecidableEq, Repr

/-- DRIVER_ON_UNIMPLEMENTED (D8): what the driver, which is outside the CORE, does after a step that reported
UnimplementedOpcode (60_exceptions.md R155). `carryOn` is the spec's `continue`. -/
inductive DriverOnUnimplemented where
  | halt
  | carryOn
deriving DecidableEq, Repr

/-- BUS_ORACLE (D4; 20_memory.md R49): the byte a read of an address outside RAM returns, given every access the CORE
has issued before it (newest first) and the address. A FREE VALUE: it has no body, so nothing can be proved about
what it answers, and a statement that mentions it holds for every bus (log entry 4). -/
opaque Config.busOracle : List BusAccess → Nat → Byte

end Sys2Proof
end

