-- ==== Sys2Proof/Machine/State.lean ====
section
/-! DEFINITION. The state of the machine: the CORE's register file and pointers (10_state.md R20-R28), the memory bus
the CORE borrows (20_memory.md R40-R52), the status output of the step interface (10_state.md R31), and the reasons a
step can stop. All of it is plain data. -/

namespace Sys2Proof.Machine

/-- The RAM part of the bus: (address, byte) pairs. Its canonical form is `Memory.wf` in Machine/Ops.lean. -/
abbrev Memory := List Host.Cell

/-- The bus the CORE borrows (R33): the environment, not CORE state. The caller supplies `mem` and `oracleAt` at
creation. With `oracleAt` empty it is the reference instantiation `RAM` of R49; with one region over the whole space it
is BUS_ORACLE alone; anything between is a platform with RAM and other addresses (log entries 1, 3 and 5). -/
structure Bus where
  /-- What the RAM addresses hold (R49). -/
  mem      : Memory
  /-- The addresses whose reads BUS_ORACLE answers (R49, D4). -/
  oracleAt : List BusRegion
  /-- Every transaction the CORE has issued, newest first: the argument `history` of BUS_ORACLE, and the record of the
  boundary behaviour R2 calls normative. -/
  history  : List BusAccess
deriving DecidableEq, Repr

/-- The status a step reports (R31). The third status, `BusFault(OutOfRangeAddress, addr)`, is `Fault.busFault`: the
state after it is not specified, so it is an outcome and never stands in a state (R152). -/
inductive Status where
  /-- `Ok`: the step completed its rule (R87). -/
  | ok
  /-- `UnimplementedOpcode(table, byte, pc)`: `byte` has no rule in `table`; `pc` is the address of the first byte of the
  instruction (R151, D7). -/
  | unimplementedOpcode (table : OpTable) (byte : Byte) (pc : Word)
deriving DecidableEq, Repr

/-- The machine between two steps. -/
structure State where
  /-- The eight 8-bit registers (R20); no register is hardwired, banked or windowed. -/
  a : Byte
  b : Byte
  c : Byte
  d : Byte
  e : Byte
  h : Byte
  l : Byte
  /-- F, the flag register: Z, N, H, C in bits 7..4 (R25); bits 3..0 are stored bits (R26). -/
  f : Byte
  /-- PC (R22). -/
  pc : Word
  /-- SP (R23). -/
  sp : Word
  /-- What the last step reported (R31): an output, which no step reads (log entry 6). -/
  status : Status
  /-- The borrowed bus (R33). -/
  bus : Bus
deriving DecidableEq, Repr

/-- The reasons a step ends without a next state. -/
inductive Fault where
  /-- `BusFault(OutOfRangeAddress, addr)` (R47, R152): the CORE presented an address of 0x10000 or more. Raised by
  `memRead` and `memWrite`, hence by LD SP,u16, CALL a16 and CALL Z,a16 and by nothing else. `bus` is the bus as the
  step left it: its earlier writes have happened and are not undone; the registers after it are not specified, so the
  fault does not hold them. Safe: a bus that masks the address would go on (D5). -/
  | busFault (addr : Nat) (bus : Bus)
deriving DecidableEq, Repr

/-- The reasons a step has no meaning. -/
inductive Refusal where
  /-- An instruction of the opcode table without a meaning yet, by its mnemonic. Raised by `exec`'s arms only, and by
  none of them now. Safe. -/
  | notModelled (mnemonic : String)
deriving DecidableEq, Repr

/-- What running an instruction, or a part of one, answers. -/
abbrev StepResult := Host.Outcome State Fault Refusal

/-- The bus before anything is loaded into it: all RAM, nothing listed, nothing accessed (log entries 2 and 3). -/
def Bus.initial : Bus := { mem := [], oracleAt := [], history := [] }

/-- Creation (R32, R170): every register and pointer is zero, and the caller supplies the bus. -/
def State.create (bus : Bus) : State :=
  { a := 0, b := 0, c := 0, d := 0, e := 0, h := 0, l := 0, f := 0, pc := 0, sp := 0, status := .ok, bus := bus }

/-- The machine right after reset, which is creation (R170). -/
def State.reset : State := State.create Bus.initial

end Sys2Proof.Machine
end

