-- ==== Sys2Proof/Machine/Ops.lean ====
section
/-! DEFINITION. The shared operations: the RAM part of the bus in canonical form, the two bus transactions, byte and word
reads, the fetch of a byte at PC, the call push, and the two abnormal ends of a step (20_memory.md; 40_fetch_decode.md
R81, R85, R86; 45_control.md R140; 60_exceptions.md R150-R152).

An operation that uses the bus takes what is done next as its last argument, so that a meaning reads in the order of
the spec's pseudocode and nothing follows an access that raised. The addresses presented to the bus are natural
numbers: the CORE does not mask them (R47). -/

namespace Sys2Proof.Machine

/-! ### RAM -/

/-- What a RAM address that holds nothing else reads as (log entry 2). -/
def Memory.unlisted : Byte := 0

/-- The byte at an address of RAM: the byte most recently written, or the launch byte (R49). -/
def Memory.read : Memory → Nat → Byte
  | [], _ => Memory.unlisted
  | (k, v) :: rest, addr => if k = addr then v else Memory.read rest addr

/-- The listed cell of `addr`, put in front of cells with higher addresses; nothing where the value is the one an
unlisted address reads as. -/
def Memory.consCell (addr : Nat) (v : Byte) (rest : Memory) : Memory :=
  if v = Memory.unlisted then rest else (addr, v) :: rest

/-- RAM with one byte written, in canonical form. -/
def Memory.write : Memory → Nat → Byte → Memory
  | [], addr, v => Memory.consCell addr v []
  | (k, x) :: rest, addr, v =>
    if addr < k then Memory.consCell addr v ((k, x) :: rest)
    else if addr = k then Memory.consCell addr v rest
    else (k, x) :: Memory.write rest addr v

/-- Every address of the list is above `addr`. -/
def Memory.above (addr : Nat) (m : Memory) : Bool := m.all fun cell => decide (addr < cell.1)

/-- The canonical form: addresses strictly rising, and no entry equal to what an unlisted address reads as. -/
def Memory.wf : Memory → Bool
  | [] => true
  | (k, v) :: rest => Memory.above k rest && decide (v ≠ Memory.unlisted) && Memory.wf rest

/-- Every listed address lies in the 16-bit address space (R40). -/
def Memory.inSpace (m : Memory) : Bool := m.all fun cell => decide (cell.1 < 0x10000)

/-- RAM with bytes written at `addr`, `addr + 1`, … modulo 65536: how a caller loads the launch memory (R33, R173). -/
def Memory.load : Memory → Word → List Byte → Memory
  | m, _, [] => m
  | m, addr, v :: rest => Memory.load (m.write addr.toNat v) (addr + 1) rest

/-! ### Bus transactions -/

/-- The region holds the address. -/
def regionHolds (addr : Nat) (r : BusRegion) : Bool := decide (r.base ≤ addr ∧ addr < r.base + r.size)

/-- The address is one whose reads BUS_ORACLE answers. -/
def Bus.isOracle (bus : Bus) (addr : Nat) : Bool := bus.oracleAt.any (regionHolds addr)

/-- The byte `readByte(addr)` returns now: RAM's, or BUS_ORACLE's (R41, R49). -/
def Bus.answer (bus : Bus) (addr : Nat) : Byte :=
  if bus.isOracle addr then Config.busOracle bus.history addr else bus.mem.read addr

/-- The bus after `readByte(addr)`. -/
def Bus.afterRead (bus : Bus) (addr : Nat) : Bus :=
  { bus with history := .read addr (bus.answer addr) :: bus.history }

/-- The bus after `writeByte(addr, v)`: RAM holds the byte (R49); at an address of BUS_ORACLE the write is in the
history and RAM is not touched (log entry 5). -/
def Bus.afterWrite (bus : Bus) (addr : Nat) (v : Byte) : Bus :=
  { bus with
    mem := if bus.isOracle addr then bus.mem else bus.mem.write addr v
    history := .write addr v :: bus.history }

/-- The state after a read of `addr`. -/
def State.afterRead (s : State) (addr : Nat) : State := { s with bus := s.bus.afterRead addr }

/-- The state after a write of `v` at `addr`. -/
def State.afterWrite (s : State) (addr : Nat) (v : Byte) : State := { s with bus := s.bus.afterWrite addr v }

/-! ### The two abnormal ends of a step (R150) -/

/-- `raise BusFault(OutOfRangeAddress, addr)`: the step ends at once; the bus keeps what the step has already written
(R47, R152). -/
def raiseBusFault (addr : Nat) (s : State) : StepResult := .fault (.busFault addr s.bus)

/-- `raise UnimplementedOpcode(table, byte, pc0)`: nothing is saved, no vector is taken and no mode changes (R155); the
status is reported, and PC stays where the fetch left it (R85, R86, R151). -/
def raiseUnimplemented (table : OpTable) (byte : Byte) (pc0 : Word) (s : State) : StepResult :=
  .next { s with status := .unimplementedOpcode table byte pc0 }

/-! ### Reads and writes -/

/-- `MemRead(addr, 1)` (R8, R41); an address of 0x10000 or more raises (R47). -/
def memRead (addr : Nat) (s : State) (k : Byte → State → StepResult) : StepResult :=
  if addr < 0x10000 then k (s.bus.answer addr) (s.afterRead addr) else raiseBusFault addr s

/-- `MemWrite(addr, 1, v)` (R8, R42); an address of 0x10000 or more raises (R47). -/
def memWrite (addr : Nat) (v : Byte) (s : State) (k : State → StepResult) : StepResult :=
  if addr < 0x10000 then k (s.afterWrite addr v) else raiseBusFault addr s

/-- `MemRead(addr, 2)`: two byte reads, the lower address first, the second address not masked (R8, R43). -/
def memReadWord (addr : Nat) (s : State) (k : Word → State → StepResult) : StepResult :=
  memRead addr s fun lo s1 => memRead (addr + 1) s1 fun hi s2 => k (wordOfBytes lo hi) s2

/-- `FetchByte()`: the byte at PC, and PC plus one modulo 65536 (R81). -/
def fetchByte (s : State) (k : Byte → State → StepResult) : StepResult :=
  memRead s.pc.toNat s fun t s1 => k t { s1 with pc := s1.pc + 1 }

/-- `PushReturn(ret)`: SP down by two, the low byte at SP, then the high byte at SP + 1, not masked (R140). -/
def pushReturn (ret : Word) (s : State) (k : State → StepResult) : StepResult :=
  let s1 : State := { s with sp := s.sp - 2 }
  memWrite s1.sp.toNat (loByte ret) s1 fun s2 => memWrite (s2.sp.toNat + 1) (hiByte ret) s2 k

end Sys2Proof.Machine
end

