-- ==== Sys2Proof/Machine/Alu.lean ====
section
/-! DEFINITION. Increment, decrement and exclusive-OR (42_alu.md). Byte arithmetic wraps modulo 256 (R114). -/

namespace Sys2Proof.Machine

/-- INC C (R111): no flag is written (D16). -/
def execIncC (s : State) : StepResult := .next { s with c := s.c + 1 }

/-- DEC B (R112): Z from the new B, in the source's inverted polarity (D9). -/
def execDecB (s : State) : StepResult :=
  .next { s with b := s.b - 1, f := flagsAfterDec (s.b - 1) s.f }

/-- XOR A (R113, D11). -/
def execXorA (s : State) : StepResult := .next { s with a := s.a ^^^ s.a, f := flagsAfterXor s.f }

end Sys2Proof.Machine
end

