-- ==== Sys2Proof/Machine/Operands.lean ====
section
/-! DEFINITION. The operand forms of the instructions: the register pairs (10_state.md R21), the high page of LDH
(30_encoding.md R62; 41_loads.md R100, R101), the relative target (R63; 45_control.md R141). -/

namespace Sys2Proof.Machine

/-- BC, the pair with B high (R21). -/
def State.bc (s : State) : Word := wordOfBytes s.c s.b
/-- DE, the pair with D high (R21). -/
def State.de (s : State) : Word := wordOfBytes s.e s.d
/-- HL, the pair with H high (R21). -/
def State.hl (s : State) : Word := wordOfBytes s.l s.h

/-- Writes HL: H takes bits 15..8 and L bits 7..0 (R21). -/
def State.setHl (s : State) (v : Word) : State := { s with h := hiByte v, l := loByte v }

/-- `0xFF00 + n`: the address of an LDH operand, u8 or C (R62, R100, R101). -/
def highPage (n : Byte) : Nat := 0xFF00 + n.toNat

/-- `(pc + sext_8(s)) mod 65536` (R63, R141): the exact sum, then narrowed. -/
def relativeTarget (pc : Word) (s : Byte) : Word := BitVec.ofInt 16 ((pc.toNat : Int) + sext8 s)

end Sys2Proof.Machine
end

