-- ==== Sys2Proof/Machine/Control.lean ====
section
/-! DEFINITION. Control transfer (45_control.md). -/

namespace Sys2Proof.Machine

/-- JR NZ,r8 (R141): the offset byte is always read; the target counts from the address after it. -/
def execJrNzR8 (s : State) : StepResult :=
  fetchByte s fun off s1 =>
    if flagZ s1.f = false then .next { s1 with pc := relativeTarget s1.pc off } else .next s1

/-- The call that CALL a16 and a taken CALL Z,a16 share (R142): the operand is read first, then the return address is
pushed, then PC is written (D14); the return address is masked (D15). -/
def call (s : State) : StepResult :=
  memReadWord s.pc.toNat s fun target s1 =>
    pushReturn (s1.pc + 2) s1 fun s2 => .next { s2 with pc := target }

/-- CALL a16 (R142). -/
def execCallA16 (s : State) : StepResult := call s

/-- CALL Z,a16 (R143): not taken, the operand is skipped and not read (D13). -/
def execCallZA16 (s : State) : StepResult :=
  if flagZ s.f then call s else .next { s with pc := s.pc + 2 }

end Sys2Proof.Machine
end

