-- ==== Sys2Proof/Machine/Loads.lean ====
section
/-! DEFINITION. The loads and stores (41_loads.md). In every meaning PC is already past the opcode (R82). -/

namespace Sys2Proof.Machine

/-- LD B,u8 (R90). -/
def execLdBU8 (s : State) : StepResult := fetchByte s fun n s1 => .next { s1 with b := n }

/-- LD C,u8 (R91). -/
def execLdCU8 (s : State) : StepResult := fetchByte s fun n s1 => .next { s1 with c := n }

/-- LD A,u8 (R92). -/
def execLdAU8 (s : State) : StepResult := fetchByte s fun n s1 => .next { s1 with a := n }

/-- LD DE,u16 (R93): two byte fetches, low to E, then high to D. -/
def execLdDeU16 (s : State) : StepResult :=
  fetchByte s fun lo s1 => fetchByte { s1 with e := lo } fun hi s2 => .next { s2 with d := hi }

/-- LD HL,u16 (R94): two byte fetches, low to L, then high to H. -/
def execLdHlU16 (s : State) : StepResult :=
  fetchByte s fun lo s1 => fetchByte { s1 with l := lo } fun hi s2 => .next { s2 with h := hi }

/-- LD SP,u16 (R95): one word read at PC, whose second address is not masked; then PC plus two (90_conflicts.md C9). -/
def execLdSpU16 (s : State) : StepResult :=
  memReadWord s.pc.toNat s fun v s1 => .next { s1 with pc := s1.pc + 2, sp := v }

/-- LD A,(DE) (R96). -/
def execLdADe (s : State) : StepResult := memRead s.de.toNat s fun v s1 => .next { s1 with a := v }

/-- LD (HL-),A (R97): the write uses HL before the decrement. -/
def execLdHldA (s : State) : StepResult := memWrite s.hl.toNat s.a s fun s1 => .next (s1.setHl (s1.hl - 1))

/-- LD (HL),A (R98). -/
def execLdHlA (s : State) : StepResult := memWrite s.hl.toNat s.a s fun s1 => .next s1

/-- LD C,A (R99). -/
def execLdCA (s : State) : StepResult := .next { s with c := s.a }

/-- LDH (u8),A (R100). -/
def execLdhU8A (s : State) : StepResult :=
  fetchByte s fun n s1 => memWrite (highPage n) s1.a s1 fun s2 => .next s2

/-- LDH (C),A (R101). -/
def execLdhCA (s : State) : StepResult := memWrite (highPage s.c) s.a s fun s1 => .next s1

end Sys2Proof.Machine
end

