-- ==== Sys2Proof/Machine/Rotate.lean ====
section
/-! DEFINITION. The rotates and the bit test (43_rotate_bit.md). -/

namespace Sys2Proof.Machine

/-- RLC A (R120): bit 7 goes to bit 0 and to C; the old C is not read (90_conflicts.md C1, C5; D12). -/
def execRlcA (s : State) : StepResult :=
  .next { s with a := shiftLeftIn (carryOutLeft s.a) s.a, f := flagsAfterRotateA (carryOutLeft s.a) s.f }

/-- RLA (R121): the old C goes to bit 0, bit 7 to C; the result goes to A (90_conflicts.md C6; D10). -/
def execRla (s : State) : StepResult :=
  .next { s with a := shiftLeftIn (flagC s.f) s.a, f := flagsAfterRotateA (carryOutLeft s.a) s.f }

/-- RL C (R122): the carry is sampled before F is cleared (D23). -/
def execRlC (s : State) : StepResult :=
  .next { s with c := shiftLeftIn (flagC s.f) s.c
                 f := flagsAfterRlC (carryOutLeft s.c) (shiftLeftIn (flagC s.f) s.c) }

/-- BIT 7,H (R123). -/
def execBit7H (s : State) : StepResult := .next { s with f := flagsAfterBit (s.h.getLsbD 7) s.f }

end Sys2Proof.Machine
end

