-- ==== Sys2Proof/Machine/Stack.lean ====
section
/-! DEFINITION. PUSH BC and POP BC (44_stack.md). SP is the value of a register at each access, so it wraps modulo
65536 and every address is in range (R130, R131). -/

namespace Sys2Proof.Machine

/-- PUSH BC (R130): B at SP - 1, then C at SP - 2. -/
def execPushBc (s : State) : StepResult :=
  let s1 : State := { s with sp := s.sp - 1 }
  memWrite s1.sp.toNat s1.b s1 fun s2 =>
    let s3 : State := { s2 with sp := s2.sp - 1 }
    memWrite s3.sp.toNat s3.c s3 fun s4 => .next s4

/-- POP BC (R131): C from SP, then B from SP + 1. -/
def execPopBc (s : State) : StepResult :=
  memRead s.sp.toNat s fun lo s1 =>
    let s2 : State := { s1 with c := lo, sp := s1.sp + 1 }
    memRead s2.sp.toNat s2 fun hi s3 => .next { s3 with b := hi, sp := s3.sp + 1 }

end Sys2Proof.Machine
end

