-- ==== Sys2Proof/Machine/Dispatch.lean ====
section
/-! DEFINITION. The meaning of each instruction, one arm per constructor of Instr in the order of opcode_table.json
(40_fetch_decode.md R80, R82, R83). The state given is the one after the opcode fetch: PC is past the opcode byte, or
past the prefix and the byte after it. -/

namespace Sys2Proof.Machine

def exec (i : Instr) (s : State) : Host.Outcome State Fault Refusal :=
  match i with
  | .rlcA => Sys2Proof.Machine.execRlcA s
  | .decB => Sys2Proof.Machine.execDecB s
  | .ldBU8 => Sys2Proof.Machine.execLdBU8 s
  | .incC => Sys2Proof.Machine.execIncC s
  | .ldCU8 => Sys2Proof.Machine.execLdCU8 s
  | .ldDeU16 => Sys2Proof.Machine.execLdDeU16 s
  | .rla => Sys2Proof.Machine.execRla s
  | .ldADe => Sys2Proof.Machine.execLdADe s
  | .jrNzR8 => Sys2Proof.Machine.execJrNzR8 s
  | .ldHlU16 => Sys2Proof.Machine.execLdHlU16 s
  | .ldSpU16 => Sys2Proof.Machine.execLdSpU16 s
  | .ldHldA => Sys2Proof.Machine.execLdHldA s
  | .ldAU8 => Sys2Proof.Machine.execLdAU8 s
  | .ldCA => Sys2Proof.Machine.execLdCA s
  | .ldHlA => Sys2Proof.Machine.execLdHlA s
  | .xorA => Sys2Proof.Machine.execXorA s
  | .popBc => Sys2Proof.Machine.execPopBc s
  | .pushBc => Sys2Proof.Machine.execPushBc s
  | .callZA16 => Sys2Proof.Machine.execCallZA16 s
  | .callA16 => Sys2Proof.Machine.execCallA16 s
  | .ldhU8A => Sys2Proof.Machine.execLdhU8A s
  | .ldhCA => Sys2Proof.Machine.execLdhCA s
  | .rlC => Sys2Proof.Machine.execRlC s
  | .bit7H => Sys2Proof.Machine.execBit7H s

end Sys2Proof.Machine
end

