-- ==== Sys2Proof/Machine/Fetch.lean ====
section
/-! DEFINITION. The fetch unit and the dispatch of a step (40_fetch_decode.md R80-R86), and the loading of bytes where
the next step fetches. -/

namespace Sys2Proof.Machine

/-- The opcode fetch and dispatch of R80: the opcode byte, after the prefix the byte behind it, and then `run` on the
rule selected; where there is no rule, the UnimplementedOpcode report (R85, R86). The status is `Ok` unless a raise
ends the step (R87). -/
def fetchDispatch (run : Instr → State → StepResult) (s : State) : StepResult :=
  fetchByte { s with status := .ok } fun op s1 =>
    if op = cbPrefix then
      fetchByte s1 fun x s2 =>
        match decodeCb x with
        | some i => run i s2
        | none => raiseUnimplemented .cb x s.pc s2
    else
      match decodePrimary op with
      | some i => run i s1
      | none => raiseUnimplemented .primary op s.pc s1

/-- The state with `bytes` in RAM at PC, PC + 1, … modulo 65536. A region of BUS_ORACLE that holds one of those
addresses is taken off the bus: a read there would not return the byte (log entry 12). -/
def State.loadAtPc (s : State) (bytes : List Byte) : State :=
  let clear : BusRegion → Bool := fun r =>
    (List.range bytes.length).all fun n => !regionHolds (s.pc + BitVec.ofNat 16 n).toNat r
  { s with bus := { s.bus with mem := s.bus.mem.load s.pc bytes, oracleAt := s.bus.oracleAt.filter clear } }

end Sys2Proof.Machine
end

