-- ==== Sys2Proof/Machine/Step.lean ====
section
/-! DEFINITION. One step of the CORE (40_fetch_decode.md R80, R88): exactly one instruction, or one report of an
unimplemented opcode. -/

namespace Sys2Proof.Machine

/-- `step()` of R80. It reads no status and no driver parameter: what the driver does after a step is in
Machine/Driver.lean. -/
def step (s : State) : Host.Outcome State Fault Refusal := fetchDispatch exec s

/-- The state with an opcode-table word stored where the next step fetches (log entries 11 and 12). -/
def State.withFetchWord (s : State) (nbits w : Nat) : State := s.loadAtPc (tableBytes nbits w)

end Sys2Proof.Machine
end

