-- ==== Sys2Proof/Machine/Driver.lean ====
section
/-! DEFINITION. The step's environment: the reset input (70_reset_and_hazards.md R170) and the driver that calls step
again and again (60_exceptions.md R155). Neither is part of the CORE; the driver's reaction to an UnimplementedOpcode
report is the parameter DRIVER_ON_UNIMPLEMENTED, taken as an argument (D8). -/

namespace Sys2Proof.Machine

/-- A reset input, if there is one: the creation state again, the bus untouched (R170, D17). -/
def State.resetInput (s : State) : State := State.create s.bus

/-- How a run of the driver ends. -/
inductive RunEnd where
  /-- The steps asked for were taken. -/
  | ran (s : State)
  /-- The driver halted after the report; `s` is the state the reporting step left (D8: not a successful end). -/
  | unimplemented (table : OpTable) (byte : Byte) (pc : Word) (s : State)
  /-- A step faulted; a fault is sticky and never a final state (R152). -/
  | faulted (r : Fault)
  /-- A step was refused. -/
  | refused (r : Refusal)
deriving DecidableEq, Repr

/-- At most `n` steps under a driver. Under `halt` the run ends at the first step that reports UnimplementedOpcode;
under `carryOn` the next step runs from the advanced PC (R155, D8). -/
def drive (policy : DriverOnUnimplemented) : Nat → State → RunEnd
  | 0, s => .ran s
  | n + 1, s =>
    match step s with
    | .next s1 =>
      match policy, s1.status with
      | .halt, .unimplementedOpcode table byte pc => .unimplemented table byte pc s1
      | .halt, .ok => drive policy n s1
      | .carryOn, _ => drive policy n s1
    | .fault r => .faulted r
    | .refused r => .refused r

end Sys2Proof.Machine
end

