-- ==== Sys2Proof/WellFormed.lean ====
section
/-! DEFINITION. When an instruction with its operand can be written down and encoded (30_encoding.md R61-R64, R70): the
operand is of the kind the format has, and in the range the encoding admits. -/

namespace Sys2Proof

/-- The operand is of the kind the format has a place for (R61). -/
def Format.accepts : Format → Operand → Bool
  | .op, .none => true
  | .op, .u8 _ => false
  | .op, .r8 _ => false
  | .op, .u16 _ => false
  | .opU8, .none => false
  | .opU8, .u8 _ => true
  | .opU8, .r8 _ => false
  | .opU8, .u16 _ => false
  | .opR8, .none => false
  | .opR8, .u8 _ => false
  | .opR8, .r8 _ => true
  | .opR8, .u16 _ => false
  | .opU16, .none => false
  | .opU16, .u8 _ => false
  | .opU16, .r8 _ => false
  | .opU16, .u16 _ => true
  | .cb, .none => true
  | .cb, .u8 _ => false
  | .cb, .r8 _ => false
  | .cb, .u16 _ => false

/-- The operand's value is one its bytes can hold: u8 in 0..255, r8 in -128..127, u16 in 0..65535 (R62, R63, R70). -/
def Operand.inRange : Operand → Bool
  | .none => true
  | .u8 n => decide (n < 256)
  | .r8 offset => decide (-128 ≤ offset ∧ offset ≤ 127)
  | .u16 v => decide (v < 65536)

/-- Well-formed: both checks hold. -/
def AsmInstr.wellFormed (a : AsmInstr) : Bool := a.instr.format.accepts a.operand && a.operand.inRange

end Sys2Proof
end

