-- ==== Sys2Proof/Safety.lean ====
section
/-! DEFINITION. What claims are stated in: the invariant of the machine, the registers by name with the access table of
10_state.md R34 and the flag table of R28 as data, the addresses an instruction stores to, and the conditions under
which a step faults (20_memory.md R47). -/

namespace Sys2Proof.Machine

/-! ### The invariant -/

/-- An access at an address of the 16-bit space (R40). -/
def accessInSpace : BusAccess → Bool
  | .read addr _ => decide (addr < 0x10000)
  | .write addr _ => decide (addr < 0x10000)

/-- The bus is in order: RAM is in canonical form and inside the address space, and so is every access made. -/
structure Bus.Ok (bus : Bus) : Prop where
  memWf : bus.mem.wf = true
  memInSpace : bus.mem.inSpace = true
  historyInSpace : bus.history.all accessInSpace = true

/-- F[3:0] = 0 (R26). -/
def lowNibbleZero (f : Byte) : Prop := f.extractLsb' 0 4 = 0#4

/-- The invariant of the machine: the bus is in order and F[3:0] = 0. -/
structure Inv (s : State) : Prop where
  bus : s.bus.Ok
  flags : lowNibbleZero s.f

/-! ### Registers by name -/

/-- The eight 8-bit registers (R20). -/
inductive Reg8 where
  | a | b | c | d | e | h | l | f
deriving DecidableEq, Repr

/-- The value of a register. -/
def State.get8 (s : State) : Reg8 → Byte
  | .a => s.a
  | .b => s.b
  | .c => s.c
  | .d => s.d
  | .e => s.e
  | .h => s.h
  | .l => s.l
  | .f => s.f

/-- The state with a register replaced. -/
def State.set8 (s : State) (r : Reg8) (v : Byte) : State :=
  match r with
  | .a => { s with a := v }
  | .b => { s with b := v }
  | .c => { s with c := v }
  | .d => { s with d := v }
  | .e => { s with e := v }
  | .h => { s with h := v }
  | .l => { s with l := v }
  | .f => { s with f := v }

/-- The 8-bit registers with a `w` in the row of R34. -/
def writtenRegs : Instr → List Reg8
  | .rlcA => [.a, .f]
  | .decB => [.b, .f]
  | .ldBU8 => [.b]
  | .incC => [.c]
  | .ldCU8 => [.c]
  | .ldDeU16 => [.d, .e]
  | .rla => [.a, .f]
  | .ldADe => [.a]
  | .jrNzR8 => []
  | .ldHlU16 => [.h, .l]
  | .ldSpU16 => []
  | .ldHldA => [.h, .l]
  | .ldAU8 => [.a]
  | .ldCA => [.c]
  | .ldHlA => []
  | .xorA => [.a, .f]
  | .popBc => [.b, .c]
  | .pushBc => []
  | .callZA16 => []
  | .callA16 => []
  | .ldhU8A => []
  | .ldhCA => []
  | .rlC => [.c, .f]
  | .bit7H => [.f]

/-- The 8-bit registers with an `r` in the row of R34. -/
def readRegs : Instr → List Reg8
  | .rlcA => [.a]
  | .decB => [.b]
  | .ldBU8 => []
  | .incC => [.c]
  | .ldCU8 => []
  | .ldDeU16 => []
  | .rla => [.a, .f]
  | .ldADe => [.d, .e]
  | .jrNzR8 => [.f]
  | .ldHlU16 => []
  | .ldSpU16 => []
  | .ldHldA => [.a, .h, .l]
  | .ldAU8 => []
  | .ldCA => [.a]
  | .ldHlA => [.a, .h, .l]
  | .xorA => [.a]
  | .popBc => []
  | .pushBc => [.b, .c]
  | .callZA16 => [.f]
  | .callA16 => []
  | .ldhU8A => [.a]
  | .ldhCA => [.a, .c]
  | .rlC => [.c, .f]
  | .bit7H => [.h]

/-- The instructions with a `w` in the SP column of R34 (CALL Z,a16 only when it is taken). -/
def writesSp : Instr → Bool
  | .ldSpU16 => true
  | .popBc => true
  | .pushBc => true
  | .callZA16 => true
  | .callA16 => true
  | .rlcA | .decB | .ldBU8 | .incC | .ldCU8 | .ldDeU16 | .rla | .ldADe | .jrNzR8 | .ldHlU16 | .ldHldA | .ldAU8
  | .ldCA | .ldHlA | .xorA | .ldhU8A | .ldhCA | .rlC | .bit7H => false

/-- The bits of F an instruction writes (R28): 7 is Z, 6 N, 5 H, 4 C; RL C writes all eight. -/
def writtenFlagBits : Instr → List Nat
  | .rlcA => [4]
  | .decB => [7]
  | .rla => [4]
  | .xorA => [7]
  | .rlC => [0, 1, 2, 3, 4, 5, 6, 7]
  | .bit7H => [5, 6, 7]
  | .ldBU8 | .incC | .ldCU8 | .ldDeU16 | .ldADe | .jrNzR8 | .ldHlU16 | .ldSpU16 | .ldHldA | .ldAU8 | .ldCA
  | .ldHlA | .popBc | .pushBc | .callZA16 | .callA16 | .ldhU8A | .ldhCA => []

/-- The instructions that can leave PC elsewhere than behind themselves (45_control.md). -/
def transfersControl : Instr → Bool
  | .jrNzR8 => true
  | .callZA16 => true
  | .callA16 => true
  | .rlcA | .decB | .ldBU8 | .incC | .ldCU8 | .ldDeU16 | .rla | .ldADe | .ldHlU16 | .ldSpU16 | .ldHldA | .ldAU8
  | .ldCA | .ldHlA | .xorA | .popBc | .pushBc | .ldhU8A | .ldhCA | .rlC | .bit7H => false

/-! ### Stores -/

/-- What a call that is taken stores, for a meaning that runs with PC at the operand: the return address PC + 2, low
byte at SP - 2, high byte at the next address, not masked (R140, R142). -/
def callCells (s : State) : List Host.Cell :=
  [((s.sp - 2).toNat, loByte (s.pc + 2)), ((s.sp - 2).toNat + 1, hiByte (s.pc + 2))]

/-- The addresses an instruction stores to and the byte it stores at each, computed from the state its meaning runs on
(R97, R98, R100, R101, R130, R140): each is the expression the meaning presents to the bus. -/
def storedCells (i : Instr) (s : State) : List Host.Cell :=
  match i with
  | .ldHldA => [(s.hl.toNat, s.a)]
  | .ldHlA => [(s.hl.toNat, s.a)]
  | .ldhU8A => [(highPage (s.bus.answer s.pc.toNat), s.a)]
  | .ldhCA => [(highPage s.c, s.a)]
  | .pushBc => [((s.sp - 1).toNat, s.b), ((s.sp - 1 - 1).toNat, s.c)]
  | .callA16 => callCells s
  | .callZA16 => if flagZ s.f then callCells s else []
  | .rlcA | .decB | .ldBU8 | .incC | .ldCU8 | .ldDeU16 | .rla | .ldADe | .jrNzR8 | .ldHlU16 | .ldSpU16 | .ldAU8
  | .ldCA | .xorA | .popBc | .rlC | .bit7H => []

/-- The addresses an instruction stores to. -/
def storedAddrs (i : Instr) (s : State) : List Nat := (storedCells i s).map (·.1)

/-! ### What a step dispatches -/

/-- A row of R65: the byte, the rule it selects, its format and its length. -/
def primaryRow (b : Byte) (i : Instr) (format : Format) (length : Nat) : Prop :=
  decodePrimary b = some i ∧ opcodeBytes i = [b] ∧ i.format = format ∧ i.length = length

/-- A row of R66: the byte after the prefix and the rule it selects; the length is 2. -/
def cbRow (x : Byte) (i : Instr) : Prop :=
  decodeCb x = some i ∧ opcodeBytes i = [cbPrefix, x] ∧ i.format = .cb ∧ i.length = 2

/-- The byte the opcode fetch of the next step returns (R81). -/
def firstByte (s : State) : Byte := s.bus.answer s.pc.toNat

/-- The byte the next step's fetch after the prefix returns (R83). -/
def secondByte (s : State) : Byte := (s.bus.afterRead s.pc.toNat).answer (s.pc + 1).toNat

/-- The rule the next step runs; `none` where it reports UnimplementedOpcode (R80). -/
def dispatched (s : State) : Option Instr :=
  if firstByte s = cbPrefix then decodeCb (secondByte s) else decodePrimary (firstByte s)

/-- The state a rule of the primary table runs on: one byte fetched, PC past it (R81, R82). -/
def afterOpcodeFetch (s : State) : State :=
  { s with status := .ok, pc := s.pc + 1, bus := s.bus.afterRead s.pc.toNat }

/-- The state a rule of the extended table runs on: two bytes fetched, PC past both (R83). -/
def afterPrefixFetch (s : State) : State :=
  { s with status := .ok, pc := s.pc + 2, bus := (s.bus.afterRead s.pc.toNat).afterRead (s.pc + 1).toNat }

/-- The state the rule of the next step runs on. -/
def afterFetch (s : State) : State :=
  if firstByte s = cbPrefix then afterPrefixFetch s else afterOpcodeFetch s

/-! ### Calls -/

/-- The bus after a call's operand read: the byte at PC and the byte after it (R142). -/
def afterOperandRead (s : State) : Bus := (s.bus.afterRead s.pc.toNat).afterRead (s.pc.toNat + 1)

/-- The target a call reads, low byte first (R142). -/
def callTarget (s : State) : Word :=
  wordOfBytes (s.bus.answer s.pc.toNat) ((s.bus.afterRead s.pc.toNat).answer (s.pc.toNat + 1))

/-- The state after a call that does not fault: the return address PC + 2 is pushed, low byte at SP - 2, high byte at
the next address, SP is down by two and PC is the target (R140, R142). -/
def afterCall (s : State) : State :=
  { s with
    pc := callTarget s
    sp := s.sp - 2
    bus := ((afterOperandRead s).afterWrite (s.sp - 2).toNat (loByte (s.pc + 2))).afterWrite ((s.sp - 2).toNat + 1)
      (hiByte (s.pc + 2)) }

/-! ### RAM and the history of accesses -/

/-- The value of the latest write to an address in a history, newest access first. -/
def latestWrite : List BusAccess → Nat → Option Byte
  | [], _ => none
  | .write addr v :: older, x => if addr = x then some v else latestWrite older x
  | .read _ _ :: older, x => latestWrite older x

/-- Every read of a RAM address in a history returned the value of the latest earlier write to that address, or the
launch byte (R49, R52). -/
def readsFollowWrites (launch : Memory) (bus : Bus) : List BusAccess → Prop
  | [] => True
  | .write _ _ :: older => readsFollowWrites launch bus older
  | .read x v :: older =>
    (bus.isOracle x = false → v = (latestWrite older x).getD (launch.read x)) ∧ readsFollowWrites launch bus older

/-- RAM is what the launch memory and the history make it, and every read so far saw it so. -/
structure RamConsistent (launch : Memory) (bus : Bus) : Prop where
  wf : bus.mem.wf = true
  ram : ∀ x, bus.isOracle x = false → bus.mem.read x = (latestWrite bus.history x).getD (launch.read x)
  reads : readsFollowWrites launch bus bus.history

/-- The access is a read. -/
def isReadAccess : BusAccess → Bool
  | .read _ _ => true
  | .write _ _ => false

/-- The bus with another history. -/
def Bus.withHistory (bus : Bus) (history : List BusAccess) : Bus := { bus with history := history }

/-- The state with another history on its bus. -/
def State.withHistory (s : State) (history : List BusAccess) : State := { s with bus := s.bus.withHistory history }

/-- An outcome without the history of the bus in it. -/
def forgetHistory : StepResult → StepResult
  | .next s => .next (s.withHistory [])
  | .fault (.busFault addr bus) => .fault (.busFault addr (bus.withHistory []))
  | .refused r => .refused r

/-! ### Faults and safe runs -/

/-- The instruction is a call that is taken in this state (R142, R143). -/
def callTaken (i : Instr) (s : State) : Prop := i = .callA16 ∨ (i = .callZA16 ∧ flagZ s.f = true)

/-- The two places of R47, for a meaning that runs with PC past the opcode: the word operand at PC = 0xFFFF, and the
call push with SP = 0x0001. -/
def presentsOutOfRange (i : Instr) (s : State) : Prop :=
  ((i = .ldSpU16 ∨ callTaken i s) ∧ s.pc = 0xFFFF#16) ∨ (callTaken i s ∧ s.sp = 0x0001#16)

/-- A safe step: it goes on to a next state and reports `Ok`. -/
def SafeStep (s : State) : Prop := ∃ t, step s = .next t ∧ t.status = .ok

/-- A safe run of `n` steps: every one of them is safe. -/
def SafeRun : Nat → State → Prop
  | 0, _ => True
  | n + 1, s => ∃ t, step s = .next t ∧ t.status = .ok ∧ SafeRun n t

/-- Replaces the next state of an outcome; a fault or a refusal stays as it is. -/
def mapNext (g : State → State) : StepResult → StepResult
  | .next s => .next (g s)
  | .fault r => .fault r
  | .refused r => .refused r

end Sys2Proof.Machine
end

