-- ==== Sys2Proof/Certificates/Slice0/Obligations.lean ====
section
/-! DEFINITION. The statements about the model, for the provers. A statement that gives an instruction's next state
gives ALL of it: what it does not name is unchanged. Where a statement speaks of the bus, it holds for every bus: an
address may be RAM's or BUS_ORACLE's, and `Bus.answer` is the byte a read of it returns. -/

open Sys2Proof Sys2Proof.Machine

/-! ### Encoding and decoding (30_encoding.md) -/

/-- Decoding the encoding of a well-formed instruction, whatever follows it, gives the instruction back with its
operand (R60-R66). -/
def Obligations.DecodeEncodeRoundTrip : Prop :=
  ∀ (a : AsmInstr) (rest : List Byte), a.wellFormed = true → decode (encode a ++ rest) = .insn a rest

/-- What decodes to an instruction is the encoding of that instruction, which is well-formed (R60-R66). -/
def Obligations.EncodeDecodeRoundTrip : Prop :=
  ∀ (bytes : List Byte) (a : AsmInstr) (rest : List Byte),
    decode bytes = .insn a rest → a.wellFormed = true ∧ bytes = encode a ++ rest

/-- The decoder is total (R71): three bytes or more always decode, to a rule of the tables, to an unimplemented primary
byte or to the prefix and an unimplemented byte, and the bytes read are at most 3. The rule is the spec's inference from
R65-R68. -/
def Obligations.DecoderIsTotal : Prop :=
  ∀ bytes : List Byte, 3 ≤ bytes.length →
    (∃ a rest, decode bytes = .insn a rest ∧ bytes = encode a ++ rest ∧ (encode a).length ≤ 3) ∨
    (∃ b rest, decode bytes = .unimplemented .primary b rest ∧ bytes = b :: rest ∧
      b ≠ cbPrefix ∧ decodePrimary b = none) ∨
    (∃ x rest, decode bytes = .unimplemented .cb x rest ∧ bytes = cbPrefix :: x :: rest ∧ decodeCb x = none)

/-- Words written out bit by bit from R61, R65 and R66, one of each format and family, decode to what they stand for. -/
def Obligations.SpecWordsDecode : Prop :=
  decode [0b00000100#8] = .insn ⟨.rlcA, .none⟩ [] ∧
  decode [0b00000101#8] = .insn ⟨.decB, .none⟩ [] ∧
  decode [0b00000110#8, 0b10101011#8] = .insn ⟨.ldBU8, .u8 0xAB⟩ [] ∧
  decode [0b00010001#8, 0b00110100#8, 0b00010010#8] = .insn ⟨.ldDeU16, .u16 0x1234⟩ [] ∧
  decode [0b00100000#8, 0b11111110#8] = .insn ⟨.jrNzR8, .r8 (-2)⟩ [] ∧
  decode [0b11000101#8] = .insn ⟨.pushBc, .none⟩ [] ∧
  decode [0b11001101#8, 0b00000000#8, 0b00000011#8] = .insn ⟨.callA16, .u16 0x0300⟩ [] ∧
  decode [0b11001011#8, 0b00010001#8] = .insn ⟨.rlC, .none⟩ [] ∧
  decode [0b11001011#8, 0b01111100#8] = .insn ⟨.bit7H, .none⟩ [] ∧
  decode [0b11001011#8, 0b11001011#8] = .unimplemented .cb 0xCB#8 [] ∧
  decode [0b00000000#8] = .unimplemented .primary 0x00#8 []

/-- 233 primary bytes, besides the prefix, and 254 extended bytes have no rule (R67). -/
def Obligations.UndefinedByteCounts : Prop :=
  ((List.range 256).filter fun n =>
    decide (BitVec.ofNat 8 n ≠ cbPrefix) && (decodePrimary (BitVec.ofNat 8 n)).isNone).length = 233 ∧
  ((List.range 256).filter fun n => (decodeCb (BitVec.ofNat 8 n)).isNone).length = 254

/-- The number of bytes the decoder consumes is found from byte 0 alone (R68). -/
def Obligations.LengthFoundFromFirstByte : Prop :=
  ∀ (b : Byte) (bytes : List Byte),
    (∀ a rest, decode (b :: bytes) = .insn a rest → rest.length + lengthFromFirst b = bytes.length + 1) ∧
    (∀ table x rest, decode (b :: bytes) = .unimplemented table x rest →
      rest.length + lengthFromFirst b = bytes.length + 1)

/-- The operand that the assembler computes for `JR NZ,target` at `addr` is in range, and added to the address after
the instruction it gives the target; there is none exactly where the distance is not in -128..127 (R70; the spec's
decision D20). -/
def Obligations.JrTargetAssembles : Prop :=
  ∀ addr target : Word,
    (∀ operand, jrOperand addr.toNat target.toNat = some operand →
      ∃ offset, operand = .r8 offset ∧ operand.inRange = true ∧ relativeTarget (addr + 2) (r8Byte offset) = target) ∧
    (jrOperand addr.toNat target.toNat = none ↔
      (target.toNat : Int) < addr.toNat + 2 - 128 ∨ (addr.toNat : Int) + 2 + 127 < target.toNat)

/-! ### The step (40_fetch_decode.md) -/

/-- A step runs the rule its opcode selects, on the state with the opcode bytes fetched: PC past one byte, or past the
prefix and the byte after it (R80-R83). -/
def Obligations.StepRunsDispatchedInstruction : Prop :=
  ∀ (s : State) (i : Instr),
    (firstByte s ≠ cbPrefix → decodePrimary (firstByte s) = some i → step s = exec i (afterOpcodeFetch s)) ∧
    (firstByte s = cbPrefix → decodeCb (secondByte s) = some i → step s = exec i (afterPrefixFetch s))

/-- A step runs the decoded instruction: where RAM holds, at PC and the two addresses after it, bytes that decode to a
(well-formed) instruction, the step is `exec` of it on the state with the opcode bytes fetched. -/
def Obligations.StepRunsDecodedInstruction : Prop :=
  ∀ (s : State) (a : AsmInstr) (rest : List Byte),
    s.bus.isOracle s.pc.toNat = false → s.bus.isOracle (s.pc + 1).toNat = false →
    decode [s.bus.mem.read s.pc.toNat, s.bus.mem.read (s.pc + 1).toNat, s.bus.mem.read (s.pc + 2).toNat] =
      .insn a rest →
    a.wellFormed = true ∧
    step s = exec a.instr (if a.instr.format = .cb then afterPrefixFetch s else afterOpcodeFetch s)

/-- The operand that decodes is the operand the rule uses: where the instruction's bytes are in RAM, the step of a load,
a jump, a call or an LDH store computes with the decoded number (R62-R64). The word operand of LD SP and CALL is read
without wrapping, so there PC is not 0xFFFE; a call pushes, so there SP is not 0x0001. -/
def Obligations.DecodedOperandIsUsed : Prop :=
  ∀ (s : State) (rest : List Byte),
    s.bus.isOracle s.pc.toNat = false → s.bus.isOracle (s.pc + 1).toNat = false →
    s.bus.isOracle (s.pc + 2).toNat = false →
    let bytes := [s.bus.mem.read s.pc.toNat, s.bus.mem.read (s.pc + 1).toNat, s.bus.mem.read (s.pc + 2).toNat]
    (∀ n, decode bytes = .insn ⟨.ldBU8, .u8 n⟩ rest → ∃ t, step s = .next t ∧ t.b = BitVec.ofNat 8 n) ∧
    (∀ n, decode bytes = .insn ⟨.ldCU8, .u8 n⟩ rest → ∃ t, step s = .next t ∧ t.c = BitVec.ofNat 8 n) ∧
    (∀ n, decode bytes = .insn ⟨.ldAU8, .u8 n⟩ rest → ∃ t, step s = .next t ∧ t.a = BitVec.ofNat 8 n) ∧
    (∀ v, decode bytes = .insn ⟨.ldDeU16, .u16 v⟩ rest → ∃ t, step s = .next t ∧ t.de = BitVec.ofNat 16 v) ∧
    (∀ v, decode bytes = .insn ⟨.ldHlU16, .u16 v⟩ rest → ∃ t, step s = .next t ∧ t.hl = BitVec.ofNat 16 v) ∧
    (∀ v, decode bytes = .insn ⟨.ldSpU16, .u16 v⟩ rest → s.pc ≠ 0xFFFE#16 →
      ∃ t, step s = .next t ∧ t.sp = BitVec.ofNat 16 v) ∧
    (∀ offset, decode bytes = .insn ⟨.jrNzR8, .r8 offset⟩ rest → flagZ s.f = false →
      ∃ t, step s = .next t ∧ t.pc = s.pc + 2 + BitVec.ofInt 16 offset) ∧
    (∀ v, decode bytes = .insn ⟨.callA16, .u16 v⟩ rest → s.pc ≠ 0xFFFE#16 → s.sp ≠ 0x0001#16 →
      ∃ t, step s = .next t ∧ t.pc = BitVec.ofNat 16 v) ∧
    (∀ v, decode bytes = .insn ⟨.callZA16, .u16 v⟩ rest → flagZ s.f = true → s.pc ≠ 0xFFFE#16 → s.sp ≠ 0x0001#16 →
      ∃ t, step s = .next t ∧ t.pc = BitVec.ofNat 16 v) ∧
    (∀ n, decode bytes = .insn ⟨.ldhU8A, .u8 n⟩ rest → s.bus.mem.wf = true → s.bus.isOracle (0xFF00 + n) = false →
      ∃ t, step s = .next t ∧ t.bus.mem.read (0xFF00 + n) = s.a)

/-- An unimplemented primary byte (R85): the step reports it with its address; PC is one on; nothing else changes but
the one bus access of the fetch. That the report carries the table and the instruction's own address is the spec's
decision D7. -/
def Obligations.UnimplementedPrimaryStep : Prop :=
  ∀ s : State, firstByte s ≠ cbPrefix → decodePrimary (firstByte s) = none →
    step s = .next { s with
      pc := s.pc + 1
      status := .unimplementedOpcode .primary (firstByte s) s.pc
      bus := s.bus.afterRead s.pc.toNat }

/-- The prefix and an unimplemented byte (R86): the step reports the second byte with the prefix's address; PC is two on,
modulo 65536; nothing else changes but the two bus accesses of the fetch. That both bytes stay consumed is the spec's
inference, and the fields of the report are its decision D7. -/
def Obligations.UnimplementedExtendedStep : Prop :=
  ∀ s : State, firstByte s = cbPrefix → decodeCb (secondByte s) = none →
    step s = .next { s with
      pc := s.pc + 2
      status := .unimplementedOpcode .cb (secondByte s) s.pc
      bus := (s.bus.afterRead s.pc.toNat).afterRead (s.pc + 1).toNat }

/-- A step that goes on reports `Ok` where its opcode has a rule, and UnimplementedOpcode with the table, the byte and
the instruction's address where it has none (R31, R87, R151; the spec's decisions D2 and D7; log entry 6). -/
def Obligations.StepReportsStatus : Prop :=
  ∀ s t : State, step s = .next t →
    t.status =
      if (dispatched s).isSome then .ok
      else if firstByte s = cbPrefix then .unimplementedOpcode .cb (secondByte s) s.pc
      else .unimplementedOpcode .primary (firstByte s) s.pc

/-- No step is refused: every byte sequence has a meaning (R71, R87). -/
def Obligations.StepIsNeverRefused : Prop := ∀ (s : State) (r : Refusal), step s ≠ .refused r

/-- A step faults in exactly the two places of R47: the word operand of LD SP,u16 or of a taken call with the opcode at
0xFFFE, and the push of a taken call with SP = 0x0001; and the address is then 0x10000. That the bus raises, and does
not mask, is the spec's decision D5. -/
def Obligations.StepFaultsExactly : Prop :=
  (∀ s : State, (∃ r, step s = .fault r) ↔
    ((firstByte s = 0x31#8 ∨ firstByte s = 0xCD#8 ∨ (firstByte s = 0xCC#8 ∧ flagZ s.f = true)) ∧ s.pc = 0xFFFE#16) ∨
    ((firstByte s = 0xCD#8 ∨ (firstByte s = 0xCC#8 ∧ flagZ s.f = true)) ∧ s.sp = 0x0001#16)) ∧
  ∀ (s : State) (addr : Nat) (bus : Bus), step s = .fault (.busFault addr bus) → addr = 0x10000

/-- A step is safe (it goes on and reports `Ok`) exactly when its opcode has a rule and the rule presents no address out
of range (the spec's decision D5). -/
def Obligations.SafeStepExactly : Prop :=
  ∀ s : State, SafeStep s ↔ ∃ i, dispatched s = some i ∧ ¬ presentsOutOfRange i (afterFetch s)

/-- PC after a step that goes on (R68, R84-R86): behind the bytes that byte 0 announces, for every rule that does not
transfer control, for a jump or a call that is not taken, and for an unimplemented opcode. -/
def Obligations.PcAfterStep : Prop :=
  ∀ s t : State, step s = .next t →
    ((∀ i, dispatched s = some i → transfersControl i = false) ∨
      (dispatched s = some .jrNzR8 ∧ flagZ s.f = true) ∨ (dispatched s = some .callZA16 ∧ flagZ s.f = false)) →
    t.pc = s.pc + BitVec.ofNat 16 (lengthFromFirst (firstByte s))

/-- The status is an output only (R30, R31; that the state holds it is log entry 6): no step depends on what the last
one reported. -/
def Obligations.StatusIsNeverRead : Prop :=
  ∀ (s : State) (status : Status), step { s with status := status } = step s

/-! ### Loads and stores (41_loads.md) -/

/-- LD B,u8, LD C,u8 and LD A,u8 complete in every state (R90-R92). -/
def Obligations.ImmediateByteLoads : Prop :=
  (primaryRow 0x06 .ldBU8 .opU8 2 ∧ primaryRow 0x0E .ldCU8 .opU8 2 ∧ primaryRow 0x3E .ldAU8 .opU8 2) ∧
  ∀ s : State,
    exec .ldBU8 s =
      .next { s with b := s.bus.answer s.pc.toNat, pc := s.pc + 1, bus := s.bus.afterRead s.pc.toNat } ∧
    exec .ldCU8 s =
      .next { s with c := s.bus.answer s.pc.toNat, pc := s.pc + 1, bus := s.bus.afterRead s.pc.toNat } ∧
    exec .ldAU8 s =
      .next { s with a := s.bus.answer s.pc.toNat, pc := s.pc + 1, bus := s.bus.afterRead s.pc.toNat }

/-- LD DE,u16 and LD HL,u16 complete in every state (R93, R94): two byte fetches, each at an address modulo 65536, the
low byte first. -/
def Obligations.ImmediateWordLoads : Prop :=
  (primaryRow 0x11 .ldDeU16 .opU16 3 ∧ primaryRow 0x21 .ldHlU16 .opU16 3) ∧
  ∀ s : State,
    let bus1 := s.bus.afterRead s.pc.toNat
    let lo := s.bus.answer s.pc.toNat
    let hi := bus1.answer (s.pc + 1).toNat
    exec .ldDeU16 s = .next { s with e := lo, d := hi, pc := s.pc + 2, bus := bus1.afterRead (s.pc + 1).toNat } ∧
    exec .ldHlU16 s = .next { s with l := lo, h := hi, pc := s.pc + 2, bus := bus1.afterRead (s.pc + 1).toNat }

/-- LD SP,u16 (R95): SP is the word at PC, unless the opcode stands at 0xFFFE, where the second read faults (the
spec's decisions D5 and D26). -/
def Obligations.LdSpLoadsWord : Prop :=
  primaryRow 0x31 .ldSpU16 .opU16 3 ∧
  (∀ s : State, s.pc ≠ 0xFFFF#16 →
    exec .ldSpU16 s =
      .next { s with
        sp := wordOfBytes (s.bus.answer s.pc.toNat) ((s.bus.afterRead s.pc.toNat).answer (s.pc.toNat + 1))
        pc := s.pc + 2
        bus := (s.bus.afterRead s.pc.toNat).afterRead (s.pc.toNat + 1) }) ∧
  ∀ s : State, s.pc = 0xFFFF#16 → exec .ldSpU16 s = .fault (.busFault 0x10000 (s.bus.afterRead 0xFFFF))

/-- LD A,(DE) completes in every state (R96). -/
def Obligations.LdALoadsFromDe : Prop :=
  primaryRow 0x1A .ldADe .op 1 ∧
  ∀ s : State,
    let addr := (wordOfBytes s.e s.d).toNat
    exec .ldADe s = .next { s with a := s.bus.answer addr, bus := s.bus.afterRead addr }

/-- LD (HL-),A and LD (HL),A complete in every state (R97, R98): the store is at HL; LD (HL-),A then takes one from HL
modulo 65536, and no flag changes. -/
def Obligations.StoresThroughHl : Prop :=
  (primaryRow 0x32 .ldHldA .op 1 ∧ primaryRow 0x77 .ldHlA .op 1) ∧
  ∀ s : State,
    let hl := wordOfBytes s.l s.h
    exec .ldHldA s =
      .next { s with h := hiByte (hl - 1), l := loByte (hl - 1), bus := s.bus.afterWrite hl.toNat s.a } ∧
    exec .ldHlA s = .next { s with bus := s.bus.afterWrite hl.toNat s.a }

/-- LD C,A completes in every state, with no bus access (R99). -/
def Obligations.LdCCopiesA : Prop :=
  primaryRow 0x4F .ldCA .op 1 ∧ ∀ s : State, exec .ldCA s = .next { s with c := s.a }

/-- LDH (u8),A and LDH (C),A complete in every state (R100, R101): A is stored at 0xFF00 plus the unsigned byte. -/
def Obligations.HighPageStores : Prop :=
  (primaryRow 0xE0 .ldhU8A .opU8 2 ∧ primaryRow 0xE2 .ldhCA .op 1) ∧
  ∀ s : State,
    exec .ldhU8A s =
      .next { s with
        pc := s.pc + 1
        bus := (s.bus.afterRead s.pc.toNat).afterWrite (0xFF00 + (s.bus.answer s.pc.toNat).toNat) s.a } ∧
    exec .ldhCA s = .next { s with bus := s.bus.afterWrite (0xFF00 + s.c.toNat) s.a }

/-! ### Increment, decrement, exclusive-OR (42_alu.md) -/

/-- INC C completes in every state: C plus one modulo 256, no flag (R111; the spec's decision D16). -/
def Obligations.IncCWritesNoFlag : Prop :=
  primaryRow 0x0C .incC .op 1 ∧ ∀ s : State, exec .incC s = .next { s with c := s.c + 1 }

/-- DEC B completes in every state (R112): B minus one modulo 256; Z is set when the result is NOT zero and cleared when
it is (the spec's decision D9); every other bit of F is kept (D16). -/
def Obligations.DecBInvertsZ : Prop :=
  primaryRow 0x05 .decB .op 1 ∧
  ∀ s : State,
    exec .decB s =
      .next { s with b := s.b - 1, f := if s.b - 1 = 0#8 then s.f &&& 0x7F#8 else s.f ||| 0x80#8 }

/-- XOR A completes in every state: A is zero, Z is one, every other bit of F is kept (R113; the spec's
decisions D11 and D16). -/
def Obligations.XorAClearsA : Prop :=
  primaryRow 0xAF .xorA .op 1 ∧ ∀ s : State, exec .xorA s = .next { s with a := 0#8, f := s.f ||| 0x80#8 }

/-! ### Rotates and bit test (43_rotate_bit.md) -/

/-- RLC A completes in every state (R120): A rotated left by one, C the old bit 7, every other bit of F kept
(the spec's decisions D12 and D16). -/
def Obligations.RlcARotatesCircularly : Prop :=
  primaryRow 0x04 .rlcA .op 1 ∧
  ∀ s : State,
    exec .rlcA s =
      .next { s with a := s.a.rotateLeft 1, f := if s.a.getLsbD 7 then s.f ||| 0x10#8 else s.f &&& 0xEF#8 }

/-- RLA completes in every state (R121): bit 0 of A is the old C, C the old bit 7, every other bit of F kept; register C
is unchanged (the spec's decisions D10 and D16). -/
def Obligations.RlaRotatesThroughCarry : Prop :=
  primaryRow 0x17 .rla .op 1 ∧
  ∀ s : State,
    exec .rla s =
      .next { s with
        a := (s.a <<< 1) ||| (if s.f.getLsbD 4 then 1#8 else 0#8)
        f := if s.a.getLsbD 7 then s.f ||| 0x10#8 else s.f &&& 0xEF#8 }

/-- RL C completes in every state (R122): bit 0 of C is the old carry; F is cleared whole, then C is the old bit 7 and Z
is set when the result is NOT zero. That the carry is sampled first is the spec's decision D23. -/
def Obligations.RlCRewritesF : Prop :=
  cbRow 0x11 .rlC ∧
  ∀ s : State,
    let result := (s.c <<< 1) ||| (if s.f.getLsbD 4 then 1#8 else 0#8)
    exec .rlC s =
      .next { s with
        c := result
        f := (if result = 0#8 then 0x00#8 else 0x80#8) ||| (if s.c.getLsbD 7 then 0x10#8 else 0x00#8) }

/-- BIT 7,H completes in every state (R123): Z is bit 7 of H, N is 0, H is 1; C and bits 3..0 of F and register H are
kept. -/
def Obligations.BitSevenHSetsZ : Prop :=
  cbRow 0x7C .bit7H ∧
  ∀ s : State,
    exec .bit7H s =
      .next { s with f := (s.f &&& 0x1F#8) ||| 0x20#8 ||| (if s.h.getLsbD 7 then 0x80#8 else 0x00#8) }

/-- The rotate laws (R124): RLA and RL C rotate the nine bits of the carry and the register left by one;
RLC A permutes A's eight bits, rotating them left by one; of the three only RL C writes Z from its result, and it leaves
N = H = 0 (the spec's inference from R120-R122, and its decisions D10, D12, D16 and D23). -/
def Obligations.RotatesAreNineBit : Prop :=
  (∀ s t : State, exec .rla s = .next t →
    BitVec.cons (flagC t.f) t.a = (BitVec.cons (flagC s.f) s.a).rotateLeft 1 ∧
      flagZ t.f = flagZ s.f ∧ flagN t.f = flagN s.f ∧ flagH t.f = flagH s.f) ∧
  (∀ s t : State, exec .rlC s = .next t →
    BitVec.cons (flagC t.f) t.c = (BitVec.cons (flagC s.f) s.c).rotateLeft 1 ∧
      flagN t.f = false ∧ flagH t.f = false ∧ flagZ t.f = decide (t.c ≠ 0)) ∧
  ∀ s t : State, exec .rlcA s = .next t →
    t.a = s.a.rotateLeft 1 ∧ flagC t.f = s.a.getLsbD 7 ∧ flagZ t.f = flagZ s.f ∧ flagN t.f = flagN s.f ∧
      flagH t.f = flagH s.f

/-! ### Stack (44_stack.md) -/

/-- PUSH BC completes in every state (R130): B at SP - 1, then C at SP - 2, both modulo 65536. -/
def Obligations.PushBcStoresPair : Prop :=
  primaryRow 0xC5 .pushBc .op 1 ∧
  ∀ s : State,
    exec .pushBc s =
      .next { s with
        sp := s.sp - 2
        bus := (s.bus.afterWrite (s.sp - 1).toNat s.b).afterWrite (s.sp - 2).toNat s.c }

/-- POP BC completes in every state (R131): C from SP, then B from SP + 1 modulo 65536. -/
def Obligations.PopBcLoadsPair : Prop :=
  primaryRow 0xC1 .popBc .op 1 ∧
  ∀ s : State,
    let bus1 := s.bus.afterRead s.sp.toNat
    exec .popBc s =
      .next { s with
        c := s.bus.answer s.sp.toNat
        b := bus1.answer (s.sp + 1).toNat
        sp := s.sp + 2
        bus := bus1.afterRead (s.sp + 1).toNat }

/-- POP BC undoes PUSH BC where the stack is RAM (R132): B, C and SP are as they were. -/
def Obligations.PushPopRoundTrip : Prop :=
  ∀ s : State, s.bus.mem.wf = true →
    s.bus.isOracle (s.sp - 1).toNat = false → s.bus.isOracle (s.sp - 2).toNat = false →
    ∃ t u, exec .pushBc s = .next t ∧ t.sp = s.sp - 2 ∧ exec .popBc t = .next u ∧
      u.b = s.b ∧ u.c = s.c ∧ u.sp = s.sp

/-- POP BC after a call takes the return address, where the stack is RAM (R132, R144): it is the address after the
operand, B its high byte and C its low byte, and SP is as before the call. -/
def Obligations.PopTakesReturnAddress : Prop :=
  ∀ s : State, s.bus.mem.wf = true → s.pc ≠ 0xFFFF#16 → s.sp ≠ 0x0001#16 →
    s.bus.isOracle (s.sp - 1).toNat = false → s.bus.isOracle (s.sp - 2).toNat = false →
    ∃ t u, exec .callA16 s = .next t ∧ exec .popBc t = .next u ∧
      wordOfBytes u.c u.b = s.pc + 2 ∧ u.sp = s.sp

/-! ### Control transfer (45_control.md) -/

/-- JR NZ,r8 completes in every state (R141): the offset byte is read; with Z clear, PC is the address after it plus the
offset, sign-extended, modulo 65536 (the wrap is the spec's inference from R24); with Z set, PC is the
address after it. -/
def Obligations.JrNzBranchesOnZClear : Prop :=
  primaryRow 0x20 .jrNzR8 .opR8 2 ∧
  ∀ s : State,
    exec .jrNzR8 s =
      .next { s with
        pc := if s.f.getLsbD 7 then s.pc + 1 else s.pc + 1 + (s.bus.answer s.pc.toNat).signExtend 16
        bus := s.bus.afterRead s.pc.toNat }

/-- CALL a16 (R140, R142): it completes unless the opcode stands at 0xFFFE or SP is 0x0001. In the first case the
operand read faults and nothing is pushed, whatever SP is (R153); in the second the low byte is pushed at 0xFFFF and the
write of the high byte faults. The order, the masked return address and the faults are the spec's decisions D5, D14 and
D15. -/
def Obligations.CallPushesAndJumps : Prop :=
  primaryRow 0xCD .callA16 .opU16 3 ∧
  (∀ s : State, s.pc ≠ 0xFFFF#16 → s.sp ≠ 0x0001#16 → exec .callA16 s = .next (afterCall s)) ∧
  (∀ s : State, s.pc = 0xFFFF#16 → exec .callA16 s = .fault (.busFault 0x10000 (s.bus.afterRead 0xFFFF))) ∧
  ∀ s : State, s.pc ≠ 0xFFFF#16 → s.sp = 0x0001#16 →
    exec .callA16 s =
      .fault (.busFault 0x10000 ((afterOperandRead s).afterWrite 0xFFFF (loByte (s.pc + 2))))

/-- CALL Z,a16 (R143): with Z set it is CALL a16, faults among it; with Z clear it completes in every state, skips its
operand and does not read it: no bus access, no fault (the spec's decision D13). -/
def Obligations.CallZTakenOnZSet : Prop :=
  primaryRow 0xCC .callZA16 .opU16 3 ∧
  (∀ s : State, s.f.getLsbD 7 = true → s.pc ≠ 0xFFFF#16 → s.sp ≠ 0x0001#16 →
    exec .callZA16 s = .next (afterCall s)) ∧
  (∀ s : State, s.f.getLsbD 7 = true → s.pc = 0xFFFF#16 →
    exec .callZA16 s = .fault (.busFault 0x10000 (s.bus.afterRead 0xFFFF))) ∧
  (∀ s : State, s.f.getLsbD 7 = true → s.pc ≠ 0xFFFF#16 → s.sp = 0x0001#16 →
    exec .callZA16 s =
      .fault (.busFault 0x10000 ((afterOperandRead s).afterWrite 0xFFFF (loByte (s.pc + 2))))) ∧
  ∀ s : State, s.f.getLsbD 7 = false → exec .callZA16 s = .next { s with pc := s.pc + 2 }

/-! ### Frames (10_state.md R27, R28, R34) -/

/-- The register frame (R34): an instruction that goes on leaves every 8-bit register as it was but those with a `w` in
its row, and SP but for the instructions with a `w` in the SP column (and a CALL Z,a16 that is not taken leaves SP too).
The table of R34 is the spec's inference from its rules. That an instruction leaves the status and the wiring of the bus
is no rule of the spec: that State holds the status is the model's choice (log entry 6), and so is the fixed split of
the addresses into RAM's and BUS_ORACLE's (log entry 1). -/
def Obligations.RegistersNotWrittenAreKept : Prop :=
  ∀ (i : Instr) (s t : State), exec i s = .next t →
    (∀ r, r ∉ writtenRegs i → t.get8 r = s.get8 r) ∧
    (writesSp i = false → t.sp = s.sp) ∧
    (i = .callZA16 → flagZ s.f = false → t.sp = s.sp) ∧
    t.status = s.status ∧ t.bus.oracleAt = s.bus.oracleAt

/-- An 8-bit register with neither an `r` nor a `w` in an instruction's row of R34 has no part in it: run with another
value in it, the instruction ends the same, with that value still there. So it is of SP for the instructions with an
empty SP column, and for a CALL Z,a16 that is not taken. The table of R34 is the spec's inference from its rules. -/
def Obligations.UnaccessedRegistersHaveNoPart : Prop :=
  (∀ (i : Instr) (s : State) (r : Reg8) (v : Byte), r ∉ writtenRegs i → r ∉ readRegs i →
    exec i (s.set8 r v) = mapNext (fun t => t.set8 r v) (exec i s)) ∧
  ∀ (i : Instr) (s : State) (v : Word), writesSp i = false ∨ (i = .callZA16 ∧ flagZ s.f = false) →
    exec i { s with sp := v } = mapNext (fun t => { t with sp := v }) (exec i s)

/-- The flag frame (R27, R28): every bit of F that an instruction's rule does not list keeps its value (the spec's decision
D16). -/
def Obligations.FlagBitsNotWrittenAreKept : Prop :=
  ∀ (i : Instr) (s t : State), exec i s = .next t →
    ∀ n, n ∉ writtenFlagBits i → t.f.getLsbD n = s.f.getLsbD n

/-- The memory frame: an instruction that goes on leaves every byte of RAM as it was but those at the addresses it
stores to, which are computed as its meaning computes them; the instructions that store nothing have no such address.
That RAM keeps a byte that is not written is R49 with the spec's decision D4. The statement is about the RAM part of the
bus, a split that is the model's choice (log entry 1); that a store at an address of BUS_ORACLE leaves all of RAM alone
is the model's choice too (log entry 5). What a read of an address of BUS_ORACLE returns is open, and nothing is said of
it. -/
def Obligations.BytesNotStoredAreKept : Prop :=
  ∀ (i : Instr) (s t : State), exec i s = .next t →
    ∀ addr, addr ∉ storedAddrs i s → t.bus.mem.read addr = s.bus.mem.read addr

/-- Z, N, H and C are bits 7, 6, 5 and 4 of F, and writing one of them changes its bit of F and no other (R9, R25). -/
def Obligations.FlagWriteChangesOneBit : Prop :=
  (∀ f : Byte, flagZ f = f.getLsbD 7 ∧ flagN f = f.getLsbD 6 ∧ flagH f = f.getLsbD 5 ∧ flagC f = f.getLsbD 4) ∧
  ∀ (f : Byte) (v : Bool) (n : Nat), n < 8 →
    (withZ v f).getLsbD n = (if n = 7 then v else f.getLsbD n) ∧
    (withN v f).getLsbD n = (if n = 6 then v else f.getLsbD n) ∧
    (withH v f).getLsbD n = (if n = 5 then v else f.getLsbD n) ∧
    (withC v f).getLsbD n = (if n = 4 then v else f.getLsbD n)

/-- The pairs are views of their registers, the first-named the high byte, and a write of HL puts its halves there
(R21). -/
def Obligations.PairsAreViews : Prop :=
  ∀ (s : State) (v : Word),
    s.bc.toNat = s.b.toNat * 256 + s.c.toNat ∧ s.de.toNat = s.d.toNat * 256 + s.e.toNat ∧
    s.hl.toNat = s.h.toNat * 256 + s.l.toNat ∧
    (s.setHl v).hl = v ∧ (s.setHl v).h.toNat = v.toNat / 256 ∧ (s.setHl v).l.toNat = v.toNat % 256

/-! ### Reset and invariants (10_state.md R26, R32; 70_reset_and_hazards.md) -/

/-- Creation (R32): every register and pointer is zero, hence every pair (R21), and the bus is the caller's; the reset
state is one such state, whose bus is the model's choice (log entries 2 and 3) and about which nothing is said here. -/
def Obligations.ResetRegistersAreZero : Prop :=
  (∀ bus : Bus,
    let s := State.create bus
    s.a = 0#8 ∧ s.b = 0#8 ∧ s.c = 0#8 ∧ s.d = 0#8 ∧ s.e = 0#8 ∧ s.h = 0#8 ∧ s.l = 0#8 ∧
    (s.f = 0#8 ∧ flagZ s.f = false ∧ flagN s.f = false ∧ flagH s.f = false ∧ flagC s.f = false) ∧
    s.pc = 0#16 ∧ s.sp = 0#16 ∧ s.bc = 0#16 ∧ s.de = 0#16 ∧ s.hl = 0#16 ∧ s.bus = bus) ∧
  ∃ bus, State.reset = State.create bus

/-- A reset input, if there is one, gives every register and pointer its creation value and leaves the bus untouched
(the spec's decision D17; log entry 23). -/
def Obligations.ResetInputKeepsBus : Prop :=
  ∀ s : State, s.resetInput.bus = s.bus ∧ s.resetInput = { State.reset with bus := s.bus }

/-- The flags of a created machine (R172): JR NZ branches and CALL Z does not call, whatever the operand and the bus.
R172 is the spec's inference from R32, R141 and R143; that the CALL Z that is not taken makes no bus access, which its
whole next state says here, is the spec's decision D13. -/
def Obligations.FreshFlagsDecideBranches : Prop :=
  ∀ (bus : Bus) (pc : Word),
    let s : State := { State.create bus with pc := pc }
    flagZ s.f = false ∧ flagN s.f = false ∧ flagH s.f = false ∧ flagC s.f = false ∧
    (∃ t, exec .jrNzR8 s = .next t ∧ t.pc = pc + 1 + (bus.answer pc.toNat).signExtend 16) ∧
    exec .callZA16 s = .next { s with pc := pc + 2 }

/-- The invariant holds at reset, whose empty RAM is the model's choice (log entries 2 and 3). -/
def Obligations.ResetMeetsInvariant : Prop := Inv State.reset

/-- Every step keeps the invariant: RAM stays in canonical form and inside the 16-bit space, every access is inside it,
and F[3:0] stays 0 (R26, R40; that F[3:0] is stored, and so needs the invariant, is the spec's decision D21). -/
def Obligations.StepKeepsInvariant : Prop := ∀ s t : State, Inv s → step s = .next t → Inv t

/-- A fault, too, leaves the bus in order and the accesses of the step before the fault in it, not undone (R47, R152;
the spec's decisions D5 and D6). With the opcode at 0xFFFE they are the opcode read and the read of the operand's low
byte, and RAM is as it was. Elsewhere they are the opcode read, the operand's two reads and the write of the return
address's low byte at 0xFFFF, which RAM then holds. The wiring of the bus is kept; that, and that a write at an address
of BUS_ORACLE leaves RAM alone, are the model's choices (log entries 1 and 5). -/
def Obligations.FaultLeavesBusInOrder : Prop :=
  ∀ (s : State) (addr : Nat) (bus : Bus), s.bus.Ok → step s = .fault (.busFault addr bus) →
    bus.Ok ∧ bus.oracleAt = s.bus.oracleAt ∧
    (s.pc = 0xFFFE#16 →
      bus.history = [.read 0xFFFF (secondByte s), .read 0xFFFE (firstByte s)] ++ s.bus.history ∧
      bus.mem = s.bus.mem) ∧
    (s.pc ≠ 0xFFFE#16 →
      let bus1 := s.bus.afterRead s.pc.toNat
      let bus2 := bus1.afterRead (s.pc + 1).toNat
      bus.history =
        [.write 0xFFFF (loByte (s.pc + 3)), .read ((s.pc + 1).toNat + 1) (bus2.answer ((s.pc + 1).toNat + 1)),
          .read (s.pc + 1).toNat (bus1.answer (s.pc + 1).toNat), .read s.pc.toNat (firstByte s)] ++ s.bus.history ∧
      bus.mem = if s.bus.isOracle 0xFFFF then s.bus.mem else s.bus.mem.write 0xFFFF (loByte (s.pc + 3)))

/-! ### Memory ordering (20_memory.md R48-R54) -/

/-- A bus in canonical form with no access made is consistent with its own contents as launch memory. -/
def Obligations.LaunchIsConsistent : Prop :=
  ∀ bus : Bus, bus.mem.wf = true → bus.history = [] → RamConsistent bus.mem bus

/-- Every step keeps RAM consistent with the history of accesses (R49, R52): a read of RAM returns the value of the
latest earlier write to that address, or the launch byte if there was none (the spec's decisions D4 and D18). Which
addresses are RAM's is log entry 1; that a store at another address leaves RAM alone is log entry 5. -/
def Obligations.StepKeepsRamConsistent : Prop :=
  ∀ (launch : Memory) (s t : State), RamConsistent launch s.bus → step s = .next t → RamConsistent launch t.bus

/-- The accesses of one step, a faulting one among them: the opcode fetch first, then reads only, then writes only, and
at most five (R54, R81, R177; the order is the spec's decision D6). -/
def Obligations.ReadsPrecedeWrites : Prop :=
  ∀ (s : State) (bus : Bus),
    ((∃ t, step s = .next t ∧ t.bus = bus) ∨ ∃ addr, step s = .fault (.busFault addr bus)) →
    ∃ writes reads : List BusAccess,
      bus.history = writes ++ reads ++ .read s.pc.toNat (firstByte s) :: s.bus.history ∧
      writes.all (fun x => !isReadAccess x) = true ∧ reads.all isReadAccess = true ∧
      writes.length + reads.length ≤ 4

/-- A store of a step is seen by every read of the next step, and by its opcode fetch where PC is the address stored to,
with nothing in between (R54, R175): for every storing instruction and every byte it stores at an address of RAM (R49;
the spec's decision D4; which addresses are RAM's is log entry 1). So LD (HL),A with HL the address after it completes
and A is the next opcode. -/
def Obligations.StoreSeenByNextFetch : Prop :=
  (∀ (i : Instr) (s t : State), dispatched s = some i → step s = .next t → s.bus.mem.wf = true →
    ∀ (addr : Nat) (v : Byte), (addr, v) ∈ storedCells i (afterFetch s) → s.bus.isOracle addr = false →
      t.bus.answer addr = v ∧ (t.pc.toNat = addr → firstByte t = v)) ∧
  ∀ s : State, firstByte s = 0x77#8 → s.hl = s.pc + 1 → s.bus.mem.wf = true →
    s.bus.isOracle s.hl.toNat = false →
    ∃ t, step s = .next t ∧ t.pc = s.hl ∧ firstByte t = s.a

/-- On a bus that is all RAM, no step depends on the history (R30, R49): apart from the history itself, it ends the same
whatever was accessed before. -/
def Obligations.RamStepIgnoresHistory : Prop :=
  ∀ (s : State) (history : List BusAccess), s.bus.oracleAt = [] →
    forgetHistory (step (s.withHistory history)) = forgetHistory (step s)

/-! ### The driver (60_exceptions.md R155, 92_eei_decisions.md D8) -/

/-- Under `halt`, a run ends at the first step that reports UnimplementedOpcode, with the report and the state that step
left. -/
def Obligations.HaltingDriverStops : Prop :=
  ∀ (n m : Nat) (s t u : State) (table : OpTable) (byte : Byte) (pc : Word),
    SafeRun n s → drive .halt n s = .ran t → step t = .next u → u.status = .unimplementedOpcode table byte pc →
    drive .halt (n + 1 + m) s = .unimplemented table byte pc u

/-- Under `carryOn`, a run of the driver is the host's run of the core: an UnimplementedOpcode report does not end it. -/
def Obligations.CarryingOnDriverIsRun : Prop :=
  ∀ (n : Nat) (s : State),
    drive .carryOn n s =
      match Host.Core.run Sys2Proof.core n s with
      | .next t => .ran t
      | .fault r => .faulted r
      | .refused r => .refused r

/-- On a safe run the driver's choice does not matter (R155): both drivers take every step and end in one state. -/
def Obligations.SafeRunsNeedNoDriver : Prop :=
  ∀ (n : Nat) (s : State), SafeRun n s → ∃ t, ∀ policy, drive policy n s = .ran t
end

