-- ==== Sys2Proof/Laws/Decode.lean ====
section
/-! SUPPORT. The laws of the byte-order helpers and of the dispatch tables. -/

namespace Sys2Proof

@[simp] theorem loByte_wordOfBytes (lo hi : Byte) : loByte (wordOfBytes lo hi) = lo := by
  apply BitVec.eq_of_getLsbD_eq
  intro i hi
  have h16 : i < 16 := by omega
  simp [loByte, wordOfBytes, hi, h16]

@[simp] theorem hiByte_wordOfBytes (lo hi : Byte) : hiByte (wordOfBytes lo hi) = hi := by
  apply BitVec.eq_of_getLsbD_eq
  intro i hi
  have h16 : 8 + i < 16 := by omega
  simp [hiByte, wordOfBytes, hi, h16]

@[simp] theorem wordOfBytes_lo_hi (v : Word) : wordOfBytes (loByte v) (hiByte v) = v := by
  apply BitVec.eq_of_getLsbD_eq
  intro i hi
  by_cases h : i < 8
  · simp [wordOfBytes, loByte, hiByte, hi, h]
  · have h1 : i - 8 < 8 := by omega
    have h2 : 8 + (i - 8) = i := by omega
    simp [wordOfBytes, loByte, hiByte, hi, h, h1, h2]

/-- No byte stands twice in a dispatch table, and the prefix stands in none. -/
theorem primaryTable_nodup : (primaryTable.map Prod.fst).Nodup ∧ cbPrefix ∉ primaryTable.map Prod.fst := by decide

theorem cbTable_nodup : (cbTable.map Prod.fst).Nodup := by decide

/-- What a table answers stands in it. -/
theorem lookupOpcode_mem {table : List (Byte × Instr)} {b : Byte} {i : Instr} (h : lookupOpcode table b = some i) :
    (b, i) ∈ table := by
  induction table with
  | nil => cases h
  | cons row rest ih =>
    obtain ⟨k, j⟩ := row
    unfold lookupOpcode at h
    split at h
    · next hk => cases h; subst hk; exact List.mem_cons_self
    · exact List.mem_cons_of_mem _ (ih h)

/-- The prefix is no primary opcode (R69). -/
@[simp] theorem decodePrimary_prefix : decodePrimary cbPrefix = none := by decide

end Sys2Proof
end

