-- ==== Sys2Proof/Laws/Flags.lean ====
section
/-! SUPPORT. What each write of a flag leaves of the others, and of bits 3..0 of F. -/

namespace Sys2Proof.Machine

@[simp] theorem flagZ_withZ (v : Bool) (f : Byte) : flagZ (withZ v f) = v := by
  cases v <;> simp [flagZ, withZ, withBit]
@[simp] theorem flagN_withZ (v : Bool) (f : Byte) : flagN (withZ v f) = flagN f := by
  cases v <;> simp [flagN, withZ, withBit]
@[simp] theorem flagH_withZ (v : Bool) (f : Byte) : flagH (withZ v f) = flagH f := by
  cases v <;> simp [flagH, withZ, withBit]
@[simp] theorem flagC_withZ (v : Bool) (f : Byte) : flagC (withZ v f) = flagC f := by
  cases v <;> simp [flagC, withZ, withBit]

@[simp] theorem flagZ_withN (v : Bool) (f : Byte) : flagZ (withN v f) = flagZ f := by
  cases v <;> simp [flagZ, withN, withBit]
@[simp] theorem flagN_withN (v : Bool) (f : Byte) : flagN (withN v f) = v := by
  cases v <;> simp [flagN, withN, withBit]
@[simp] theorem flagH_withN (v : Bool) (f : Byte) : flagH (withN v f) = flagH f := by
  cases v <;> simp [flagH, withN, withBit]
@[simp] theorem flagC_withN (v : Bool) (f : Byte) : flagC (withN v f) = flagC f := by
  cases v <;> simp [flagC, withN, withBit]

@[simp] theorem flagZ_withH (v : Bool) (f : Byte) : flagZ (withH v f) = flagZ f := by
  cases v <;> simp [flagZ, withH, withBit]
@[simp] theorem flagN_withH (v : Bool) (f : Byte) : flagN (withH v f) = flagN f := by
  cases v <;> simp [flagN, withH, withBit]
@[simp] theorem flagH_withH (v : Bool) (f : Byte) : flagH (withH v f) = v := by
  cases v <;> simp [flagH, withH, withBit]
@[simp] theorem flagC_withH (v : Bool) (f : Byte) : flagC (withH v f) = flagC f := by
  cases v <;> simp [flagC, withH, withBit]

@[simp] theorem flagZ_withC (v : Bool) (f : Byte) : flagZ (withC v f) = flagZ f := by
  cases v <;> simp [flagZ, withC, withBit]
@[simp] theorem flagN_withC (v : Bool) (f : Byte) : flagN (withC v f) = flagN f := by
  cases v <;> simp [flagN, withC, withBit]
@[simp] theorem flagH_withC (v : Bool) (f : Byte) : flagH (withC v f) = flagH f := by
  cases v <;> simp [flagH, withC, withBit]
@[simp] theorem flagC_withC (v : Bool) (f : Byte) : flagC (withC v f) = v := by
  cases v <;> simp [flagC, withC, withBit]

/-- A write of one of bits 7..4 leaves bits 3..0. -/
theorem lowNibble_withBit (n : Nat) (hn : 4 ≤ n) (v : Bool) (f : Byte) :
    (withBit n v f).extractLsb' 0 4 = f.extractLsb' 0 4 := by
  apply BitVec.eq_of_getLsbD_eq
  intro i hi
  have : i ≠ n := by omega
  cases v <;> simp [withBit, BitVec.getLsbD_twoPow, hi, this.symm]; omega

@[simp] theorem lowNibbleZero_withZ (v : Bool) (f : Byte) : lowNibbleZero (withZ v f) ↔ lowNibbleZero f := by
  rw [lowNibbleZero, lowNibbleZero, withZ, lowNibble_withBit 7 (by decide)]
@[simp] theorem lowNibbleZero_withN (v : Bool) (f : Byte) : lowNibbleZero (withN v f) ↔ lowNibbleZero f := by
  rw [lowNibbleZero, lowNibbleZero, withN, lowNibble_withBit 6 (by decide)]
@[simp] theorem lowNibbleZero_withH (v : Bool) (f : Byte) : lowNibbleZero (withH v f) ↔ lowNibbleZero f := by
  rw [lowNibbleZero, lowNibbleZero, withH, lowNibble_withBit 5 (by decide)]
@[simp] theorem lowNibbleZero_withC (v : Bool) (f : Byte) : lowNibbleZero (withC v f) ↔ lowNibbleZero f := by
  rw [lowNibbleZero, lowNibbleZero, withC, lowNibble_withBit 4 (by decide)]

/-- A cleared F has F[3:0] = 0. -/
@[simp] theorem lowNibbleZero_zero : lowNibbleZero 0 := by unfold lowNibbleZero; decide

end Sys2Proof.Machine
end

