-- ==== Sys2Proof/Laws/State.lean ====
section
/-! SUPPORT. One lemma per field for each named update of the state and of the bus, so that no proof unfolds one. -/

namespace Sys2Proof.Machine

@[simp] theorem State.afterRead_a (s : State) (addr : Nat) : (s.afterRead addr).a = s.a := rfl
@[simp] theorem State.afterRead_b (s : State) (addr : Nat) : (s.afterRead addr).b = s.b := rfl
@[simp] theorem State.afterRead_c (s : State) (addr : Nat) : (s.afterRead addr).c = s.c := rfl
@[simp] theorem State.afterRead_d (s : State) (addr : Nat) : (s.afterRead addr).d = s.d := rfl
@[simp] theorem State.afterRead_e (s : State) (addr : Nat) : (s.afterRead addr).e = s.e := rfl
@[simp] theorem State.afterRead_h (s : State) (addr : Nat) : (s.afterRead addr).h = s.h := rfl
@[simp] theorem State.afterRead_l (s : State) (addr : Nat) : (s.afterRead addr).l = s.l := rfl
@[simp] theorem State.afterRead_f (s : State) (addr : Nat) : (s.afterRead addr).f = s.f := rfl
@[simp] theorem State.afterRead_pc (s : State) (addr : Nat) : (s.afterRead addr).pc = s.pc := rfl
@[simp] theorem State.afterRead_sp (s : State) (addr : Nat) : (s.afterRead addr).sp = s.sp := rfl
@[simp] theorem State.afterRead_status (s : State) (addr : Nat) : (s.afterRead addr).status = s.status := rfl
@[simp] theorem State.afterRead_bus (s : State) (addr : Nat) : (s.afterRead addr).bus = s.bus.afterRead addr := rfl

@[simp] theorem State.afterWrite_a (s : State) (addr : Nat) (v : Byte) : (s.afterWrite addr v).a = s.a := rfl
@[simp] theorem State.afterWrite_b (s : State) (addr : Nat) (v : Byte) : (s.afterWrite addr v).b = s.b := rfl
@[simp] theorem State.afterWrite_c (s : State) (addr : Nat) (v : Byte) : (s.afterWrite addr v).c = s.c := rfl
@[simp] theorem State.afterWrite_d (s : State) (addr : Nat) (v : Byte) : (s.afterWrite addr v).d = s.d := rfl
@[simp] theorem State.afterWrite_e (s : State) (addr : Nat) (v : Byte) : (s.afterWrite addr v).e = s.e := rfl
@[simp] theorem State.afterWrite_h (s : State) (addr : Nat) (v : Byte) : (s.afterWrite addr v).h = s.h := rfl
@[simp] theorem State.afterWrite_l (s : State) (addr : Nat) (v : Byte) : (s.afterWrite addr v).l = s.l := rfl
@[simp] theorem State.afterWrite_f (s : State) (addr : Nat) (v : Byte) : (s.afterWrite addr v).f = s.f := rfl
@[simp] theorem State.afterWrite_pc (s : State) (addr : Nat) (v : Byte) : (s.afterWrite addr v).pc = s.pc := rfl
@[simp] theorem State.afterWrite_sp (s : State) (addr : Nat) (v : Byte) : (s.afterWrite addr v).sp = s.sp := rfl
@[simp] theorem State.afterWrite_status (s : State) (addr : Nat) (v : Byte) : (s.afterWrite addr v).status = s.status := rfl
@[simp] theorem State.afterWrite_bus (s : State) (addr : Nat) (v : Byte) : (s.afterWrite addr v).bus = s.bus.afterWrite addr v := rfl

@[simp] theorem State.setHl_a (s : State) (v : Word) : (s.setHl v).a = s.a := rfl
@[simp] theorem State.setHl_b (s : State) (v : Word) : (s.setHl v).b = s.b := rfl
@[simp] theorem State.setHl_c (s : State) (v : Word) : (s.setHl v).c = s.c := rfl
@[simp] theorem State.setHl_d (s : State) (v : Word) : (s.setHl v).d = s.d := rfl
@[simp] theorem State.setHl_e (s : State) (v : Word) : (s.setHl v).e = s.e := rfl
@[simp] theorem State.setHl_h (s : State) (v : Word) : (s.setHl v).h = hiByte v := rfl
@[simp] theorem State.setHl_l (s : State) (v : Word) : (s.setHl v).l = loByte v := rfl
@[simp] theorem State.setHl_f (s : State) (v : Word) : (s.setHl v).f = s.f := rfl
@[simp] theorem State.setHl_pc (s : State) (v : Word) : (s.setHl v).pc = s.pc := rfl
@[simp] theorem State.setHl_sp (s : State) (v : Word) : (s.setHl v).sp = s.sp := rfl
@[simp] theorem State.setHl_status (s : State) (v : Word) : (s.setHl v).status = s.status := rfl
@[simp] theorem State.setHl_bus (s : State) (v : Word) : (s.setHl v).bus = s.bus := rfl

@[simp] theorem Bus.afterRead_mem (bus : Bus) (addr : Nat) : (bus.afterRead addr).mem = bus.mem := rfl
@[simp] theorem Bus.afterRead_oracleAt (bus : Bus) (addr : Nat) : (bus.afterRead addr).oracleAt = bus.oracleAt := rfl
@[simp] theorem Bus.afterRead_history (bus : Bus) (addr : Nat) : (bus.afterRead addr).history = .read addr (bus.answer addr) :: bus.history := rfl
@[simp] theorem Bus.afterRead_isOracle (bus : Bus) (addr : Nat) (x : Nat) : (bus.afterRead addr).isOracle x = bus.isOracle x := rfl

@[simp] theorem Bus.afterWrite_mem (bus : Bus) (addr : Nat) (v : Byte) : (bus.afterWrite addr v).mem = if bus.isOracle addr then bus.mem else bus.mem.write addr v := rfl
@[simp] theorem Bus.afterWrite_oracleAt (bus : Bus) (addr : Nat) (v : Byte) : (bus.afterWrite addr v).oracleAt = bus.oracleAt := rfl
@[simp] theorem Bus.afterWrite_history (bus : Bus) (addr : Nat) (v : Byte) : (bus.afterWrite addr v).history = .write addr v :: bus.history := rfl
@[simp] theorem Bus.afterWrite_isOracle (bus : Bus) (addr : Nat) (v : Byte) (x : Nat) : (bus.afterWrite addr v).isOracle x = bus.isOracle x := rfl

@[simp] theorem State.create_a (bus : Bus) : (State.create bus).a = 0 := rfl
@[simp] theorem State.create_b (bus : Bus) : (State.create bus).b = 0 := rfl
@[simp] theorem State.create_c (bus : Bus) : (State.create bus).c = 0 := rfl
@[simp] theorem State.create_d (bus : Bus) : (State.create bus).d = 0 := rfl
@[simp] theorem State.create_e (bus : Bus) : (State.create bus).e = 0 := rfl
@[simp] theorem State.create_h (bus : Bus) : (State.create bus).h = 0 := rfl
@[simp] theorem State.create_l (bus : Bus) : (State.create bus).l = 0 := rfl
@[simp] theorem State.create_f (bus : Bus) : (State.create bus).f = 0 := rfl
@[simp] theorem State.create_pc (bus : Bus) : (State.create bus).pc = 0 := rfl
@[simp] theorem State.create_sp (bus : Bus) : (State.create bus).sp = 0 := rfl
@[simp] theorem State.create_status (bus : Bus) : (State.create bus).status = .ok := rfl
@[simp] theorem State.create_bus (bus : Bus) : (State.create bus).bus = bus := rfl

end Sys2Proof.Machine
end

