-- ==== Sys2Proof/Laws/Memory.lean ====
section
/-! SUPPORT. The laws of RAM: a read after a write, the canonical form, and the bus operations over it. -/

namespace Sys2Proof.Machine

theorem Memory.read_consCell_same (addr : Nat) (v : Byte) (rest : Memory) (h : Memory.read rest addr = Memory.unlisted) :
    Memory.read (Memory.consCell addr v rest) addr = v := by
  unfold Memory.consCell
  split
  · rw [h]; exact Eq.symm ‹_›
  · simp [Memory.read]

theorem Memory.read_consCell_other (addr x : Nat) (v : Byte) (rest : Memory) (h : x ≠ addr) :
    Memory.read (Memory.consCell addr v rest) x = Memory.read rest x := by
  unfold Memory.consCell
  split
  · rfl
  · simp [Memory.read, h.symm]

/-- An address below every listed one is not listed. -/
theorem Memory.read_of_above {addr x : Nat} {m : Memory} (h : m.above addr = true) (hx : x ≤ addr) :
    m.read x = Memory.unlisted := by
  induction m with
  | nil => rfl
  | cons cell rest ih =>
    obtain ⟨k, v⟩ := cell
    simp only [Memory.above, List.all_cons, Bool.and_eq_true, decide_eq_true_eq] at h ih
    have : k ≠ x := by omega
    simp only [Memory.read, this, if_false]
    exact ih h.2

/-- A write leaves every other address alone. -/
theorem Memory.read_write_other (m : Memory) (addr x : Nat) (v : Byte) (h : x ≠ addr) :
    (m.write addr v).read x = m.read x := by
  induction m with
  | nil => exact Memory.read_consCell_other addr x v [] h
  | cons cell rest ih =>
    obtain ⟨k, y⟩ := cell
    unfold Memory.write
    split
    · exact Memory.read_consCell_other addr x v _ h
    · split
      · subst k
        rw [Memory.read_consCell_other addr x v rest h]
        simp [Memory.read, h.symm]
      · simp only [Memory.read, ih]

theorem Memory.above_mono {i j : Nat} (hij : i ≤ j) {m : Memory} (h : m.above j = true) : m.above i = true := by
  simp only [Memory.above, List.all_eq_true, decide_eq_true_eq] at *
  exact fun cell hc => Nat.lt_of_le_of_lt hij (h cell hc)

theorem Memory.wf_cons {k : Nat} {v : Byte} {rest : Memory} :
    Memory.wf ((k, v) :: rest) = true ↔ Memory.above k rest = true ∧ v ≠ Memory.unlisted ∧ Memory.wf rest = true := by
  simp [Memory.wf, and_assoc]

/-- In canonical form, the byte written is the byte read. -/
theorem Memory.read_write_same (m : Memory) (addr : Nat) (v : Byte) (h : m.wf = true) :
    (m.write addr v).read addr = v := by
  induction m with
  | nil => exact Memory.read_consCell_same addr v [] rfl
  | cons cell rest ih =>
    obtain ⟨k, y⟩ := cell
    obtain ⟨habove, -, hrest⟩ := Memory.wf_cons.mp h
    unfold Memory.write
    split
    · next hlt =>
      apply Memory.read_consCell_same
      have hk : k ≠ addr := by omega
      simp only [Memory.read, hk, if_false]
      exact Memory.read_of_above habove (by omega)
    · split
      · subst k
        exact Memory.read_consCell_same addr v rest (Memory.read_of_above habove (Nat.le_refl addr))
      · next hne =>
        simp only [Memory.read, Ne.symm hne, if_false]
        exact ih hrest

theorem Memory.above_consCell {i addr : Nat} (v : Byte) {rest : Memory} (hi : i < addr) (h : rest.above i = true) :
    (Memory.consCell addr v rest).above i = true := by
  unfold Memory.consCell
  split
  · exact h
  · simpa [Memory.above, hi] using h

theorem Memory.wf_consCell {addr : Nat} (v : Byte) {rest : Memory} (habove : rest.above addr = true)
    (h : rest.wf = true) : (Memory.consCell addr v rest).wf = true := by
  unfold Memory.consCell
  split
  · exact h
  · next hv => exact Memory.wf_cons.mpr ⟨habove, hv, h⟩

theorem Memory.above_write {i addr : Nat} (v : Byte) {m : Memory} (hi : i < addr) (h : m.above i = true) :
    (m.write addr v).above i = true := by
  induction m with
  | nil => exact Memory.above_consCell v hi h
  | cons cell rest ih =>
    obtain ⟨k, y⟩ := cell
    have hrest : Memory.above i rest = true := by
      simp only [Memory.above, List.all_cons, Bool.and_eq_true] at h ⊢
      exact h.2
    unfold Memory.write
    split
    · exact Memory.above_consCell v hi h
    · split
      · exact Memory.above_consCell v hi hrest
      · have hk : i < k := by
          simp only [Memory.above, List.all_cons, Bool.and_eq_true, decide_eq_true_eq] at h
          exact h.1
        have := ih hrest
        simp only [Memory.above, List.all_cons, Bool.and_eq_true, decide_eq_true_eq] at this ⊢
        exact ⟨hk, this⟩

/-- A write keeps the canonical form. -/
theorem Memory.write_wf {m : Memory} (addr : Nat) (v : Byte) (h : m.wf = true) : (m.write addr v).wf = true := by
  induction m with
  | nil => exact Memory.wf_consCell v rfl rfl
  | cons cell rest ih =>
    obtain ⟨k, y⟩ := cell
    obtain ⟨habove, hy, hrest⟩ := Memory.wf_cons.mp h
    unfold Memory.write
    split
    · next hlt =>
      refine Memory.wf_consCell v ?_ h
      have := Memory.above_mono (Nat.le_of_lt hlt) habove
      simp only [Memory.above, List.all_cons, Bool.and_eq_true, decide_eq_true_eq] at this ⊢
      exact ⟨hlt, this⟩
    · split
      · subst k
        exact Memory.wf_consCell v habove hrest
      · exact Memory.wf_cons.mpr ⟨Memory.above_write v (by omega) habove, hy, ih hrest⟩

theorem Memory.inSpace_consCell {addr : Nat} (v : Byte) {rest : Memory} (ha : addr < 0x10000)
    (h : rest.inSpace = true) : (Memory.consCell addr v rest).inSpace = true := by
  unfold Memory.consCell
  split
  · exact h
  · simpa [Memory.inSpace, ha] using h

/-- A write inside the address space keeps every listed address inside it. -/
theorem Memory.write_inSpace {m : Memory} {addr : Nat} (v : Byte) (ha : addr < 0x10000) (h : m.inSpace = true) :
    (m.write addr v).inSpace = true := by
  induction m with
  | nil => exact Memory.inSpace_consCell v ha h
  | cons cell rest ih =>
    obtain ⟨k, y⟩ := cell
    simp only [Memory.inSpace, List.all_cons, Bool.and_eq_true, decide_eq_true_eq] at h ih
    unfold Memory.write
    split
    · refine Memory.inSpace_consCell v ha ?_
      simpa [Memory.inSpace] using h
    · split
      · exact Memory.inSpace_consCell v ha (by simpa [Memory.inSpace] using h.2)
      · simp only [Memory.inSpace, List.all_cons, Bool.and_eq_true, decide_eq_true_eq]
        exact ⟨h.1, ih h.2⟩

/-- Loading bytes keeps the canonical form and the address space. -/
theorem Memory.load_wf {m : Memory} (addr : Word) (bytes : List Byte) (h : m.wf = true) :
    (m.load addr bytes).wf = true := by
  induction bytes generalizing m addr with
  | nil => exact h
  | cons v rest ih => exact ih (addr + 1) (Memory.write_wf addr.toNat v h)

theorem Memory.load_inSpace {m : Memory} (addr : Word) (bytes : List Byte) (h : m.inSpace = true) :
    (m.load addr bytes).inSpace = true := by
  induction bytes generalizing m addr with
  | nil => exact h
  | cons v rest ih => exact ih (addr + 1) (Memory.write_inSpace v addr.isLt h)

/-- Equal contents are equal lists: what the canonical form is for. -/
theorem Memory.eq_of_read_eq {m n : Memory} (hm : m.wf = true) (hn : n.wf = true)
    (h : ∀ addr, m.read addr = n.read addr) : m = n := by
  induction m generalizing n with
  | nil =>
    cases n with
    | nil => rfl
    | cons cell rest =>
      obtain ⟨k, v⟩ := cell
      have hk := h k
      simp only [Memory.read, if_true] at hk
      exact absurd hk.symm (Memory.wf_cons.mp hn).2.1
  | cons cell rest ih =>
    obtain ⟨k, v⟩ := cell
    obtain ⟨habove, hv, hrest⟩ := Memory.wf_cons.mp hm
    cases n with
    | nil =>
      have hk := h k
      simp only [Memory.read, if_true] at hk
      exact absurd hk hv
    | cons cell' rest' =>
      obtain ⟨k', v'⟩ := cell'
      obtain ⟨habove', hv', hrest'⟩ := Memory.wf_cons.mp hn
      have hkk : k = k' := by
        rcases Nat.lt_trichotomy k k' with hlt | heq | hgt
        · have hk := h k
          simp only [Memory.read, if_true, Nat.ne_of_gt hlt, if_false] at hk
          exact absurd (hk.trans (Memory.read_of_above habove' (Nat.le_of_lt hlt))) hv
        · exact heq
        · have hk := h k'
          simp only [Memory.read, if_true, Nat.ne_of_gt hgt, if_false] at hk
          exact absurd (hk.symm.trans (Memory.read_of_above habove (Nat.le_of_lt hgt))) hv'
      subst hkk
      have hvv : v = v' := by
        have hk := h k
        simpa only [Memory.read, if_true] using hk
      subst hvv
      have hrr : rest = rest' := by
        refine ih hrest hrest' fun addr => ?_
        by_cases ha : k = addr
        · subst ha
          rw [Memory.read_of_above habove (Nat.le_refl k), Memory.read_of_above habove' (Nat.le_refl k)]
        · have := h addr
          simpa only [Memory.read, ha, if_false] using this
      rw [hrr]

/-! ### The bus -/

/-- A RAM address answers with what RAM holds, whatever the history. -/
theorem Bus.answer_of_ram {bus : Bus} {addr : Nat} (h : bus.isOracle addr = false) :
    bus.answer addr = bus.mem.read addr := by
  simp [Bus.answer, h]

/-- A write leaves what RAM holds at every other address. -/
theorem Bus.afterWrite_read_other (bus : Bus) (addr x : Nat) (v : Byte) (h : x ≠ addr) :
    (bus.afterWrite addr v).mem.read x = bus.mem.read x := by
  simp only [Bus.afterWrite_mem]
  split
  · rfl
  · exact Memory.read_write_other bus.mem addr x v h

/-- A write keeps RAM in canonical form. -/
theorem Bus.afterWrite_wf {bus : Bus} (addr : Nat) (v : Byte) (h : bus.mem.wf = true) :
    (bus.afterWrite addr v).mem.wf = true := by
  simp only [Bus.afterWrite_mem]
  split
  · exact h
  · exact Memory.write_wf addr v h

/-- A read of the RAM address just written answers with the byte written (R49). -/
theorem Bus.answer_afterWrite_same {bus : Bus} {addr : Nat} (v : Byte) (hwf : bus.mem.wf = true)
    (h : bus.isOracle addr = false) : (bus.afterWrite addr v).answer addr = v := by
  rw [Bus.answer_of_ram (by simpa using h)]
  simp [h, Memory.read_write_same _ _ _ hwf]

/-- A read of another RAM address answers with what it held before the write (R49). -/
theorem Bus.answer_afterWrite_other {bus : Bus} {addr x : Nat} (v : Byte) (h : bus.isOracle x = false)
    (hne : x ≠ addr) : (bus.afterWrite addr v).answer x = bus.answer x := by
  rw [Bus.answer_of_ram (by simpa using h), Bus.answer_of_ram h]
  exact Bus.afterWrite_read_other bus addr x v hne

/-- A read keeps the bus in order. -/
theorem Bus.Ok.afterRead {bus : Bus} {addr : Nat} (ha : addr < 0x10000) (h : bus.Ok) : (bus.afterRead addr).Ok where
  memWf := h.memWf
  memInSpace := h.memInSpace
  historyInSpace := by simpa [accessInSpace, ha] using h.historyInSpace

/-- A write keeps the bus in order. -/
theorem Bus.Ok.afterWrite {bus : Bus} {addr : Nat} (v : Byte) (ha : addr < 0x10000) (h : bus.Ok) :
    (bus.afterWrite addr v).Ok where
  memWf := Bus.afterWrite_wf addr v h.memWf
  memInSpace := by
    simp only [Bus.afterWrite_mem]
    split
    · exact h.memInSpace
    · exact Memory.write_inSpace v ha h.memInSpace
  historyInSpace := by simpa [accessInSpace, ha] using h.historyInSpace

end Sys2Proof.Machine
end

