-- ==== Sys2Proof/Laws/Ops.lean ====
section
/-! SUPPORT. One lemma per shared operation that says everything it can do; the forms at a register's value, which is
always in range, are simp lemmas. -/

namespace Sys2Proof.Machine

/-! ### MemRead and MemWrite -/

/-- A read in range continues with the bus's answer. -/
theorem memRead_of_lt {addr : Nat} (h : addr < 0x10000) (s : State) (k : Byte → State → StepResult) :
    memRead addr s k = k (s.bus.answer addr) (s.afterRead addr) := if_pos h

/-- A read out of range raises (R47). -/
theorem memRead_of_le {addr : Nat} (h : 0x10000 ≤ addr) (s : State) (k : Byte → State → StepResult) :
    memRead addr s k = .fault (.busFault addr s.bus) := if_neg (Nat.not_lt.mpr h)

/-- A write in range continues. -/
theorem memWrite_of_lt {addr : Nat} (h : addr < 0x10000) (v : Byte) (s : State) (k : State → StepResult) :
    memWrite addr v s k = k (s.afterWrite addr v) := if_pos h

/-- A write out of range raises (R47). -/
theorem memWrite_of_le {addr : Nat} (h : 0x10000 ≤ addr) (v : Byte) (s : State) (k : State → StepResult) :
    memWrite addr v s k = .fault (.busFault addr s.bus) := if_neg (Nat.not_lt.mpr h)

/-- Everything a read that goes on can have done. -/
theorem memRead_next {addr : Nat} {s t : State} {k : Byte → State → StepResult} :
    memRead addr s k = .next t ↔ addr < 0x10000 ∧ k (s.bus.answer addr) (s.afterRead addr) = .next t := by
  unfold memRead
  split <;> simp [*, raiseBusFault]

/-- Everything a write that goes on can have done. -/
theorem memWrite_next {addr : Nat} {v : Byte} {s t : State} {k : State → StepResult} :
    memWrite addr v s k = .next t ↔ addr < 0x10000 ∧ k (s.afterWrite addr v) = .next t := by
  unfold memWrite
  split <;> simp [*, raiseBusFault]

/-- An LDH address is an address of the space (R100, R101). -/
theorem highPage_lt (n : Byte) : highPage n < 0x10000 := by
  have := n.isLt
  unfold highPage
  omega

@[simp] theorem memRead_word (w : Word) (s : State) (k : Byte → State → StepResult) :
    memRead w.toNat s k = k (s.bus.answer w.toNat) (s.afterRead w.toNat) := memRead_of_lt w.isLt s k

@[simp] theorem memWrite_word (w : Word) (v : Byte) (s : State) (k : State → StepResult) :
    memWrite w.toNat v s k = k (s.afterWrite w.toNat v) := memWrite_of_lt w.isLt v s k

@[simp] theorem memWrite_highPage (n v : Byte) (s : State) (k : State → StepResult) :
    memWrite (highPage n) v s k = k (s.afterWrite (highPage n) v) := memWrite_of_lt (highPage_lt n) v s k

/-! ### FetchByte -/

/-- `FetchByte()` always completes: the byte at PC, PC plus one, one read on the bus (R81). -/
theorem fetchByte_eq (s : State) (k : Byte → State → StepResult) :
    fetchByte s k = k (s.bus.answer s.pc.toNat) { s with pc := s.pc + 1, bus := s.bus.afterRead s.pc.toNat } := by
  simp [fetchByte, State.afterRead]

/-! ### The word read at PC -/

/-- The address after a register's value is in range exactly when the value is not 0xFFFF. -/
theorem word_succ_lt_space {w : Word} : w.toNat + 1 < 0x10000 ↔ w ≠ 0xFFFF#16 := by
  have := w.isLt
  constructor
  · rintro h rfl
    exact absurd h (by decide)
  · intro h
    have : w.toNat ≠ 0xFFFF := fun e => h (BitVec.eq_of_toNat_eq e)
    omega

/-- `MemRead(w, 2)` at a register's value below 0xFFFF: two reads, low byte first. -/
theorem memReadWord_of_ne {w : Word} (h : w ≠ 0xFFFF#16) (s : State) (k : Word → State → StepResult) :
    memReadWord w.toNat s k =
      k (wordOfBytes (s.bus.answer w.toNat) ((s.bus.afterRead w.toNat).answer (w.toNat + 1)))
        ((s.afterRead w.toNat).afterRead (w.toNat + 1)) := by
  simp [memReadWord, memRead_of_lt (word_succ_lt_space.mpr h)]

/-- `MemRead(0xFFFF, 2)`: the low byte is read, and the second address raises (R43, R47). -/
theorem memReadWord_top (s : State) (k : Word → State → StepResult) :
    memReadWord (0xFFFF#16).toNat s k = .fault (.busFault 0x10000 (s.bus.afterRead 0xFFFF)) := by
  unfold memReadWord
  rw [memRead_word, memRead_of_le (by decide)]
  rfl

/-! ### The call push -/

/-- `PushReturn(ret)` with SP other than 0x0001 (R140). -/
theorem pushReturn_of_ne {s : State} (h : s.sp ≠ 0x0001#16) (ret : Word) (k : State → StepResult) :
    pushReturn ret s k =
      k { s with
            sp := s.sp - 2
            bus := (s.bus.afterWrite (s.sp - 2).toNat (loByte ret)).afterWrite ((s.sp - 2).toNat + 1) (hiByte ret) } := by
  have hsp : s.sp - 2 ≠ 0xFFFF#16 := by
    intro e
    apply h
    have := congrArg (· + 2#16) e
    simpa using this
  simp only [pushReturn, memWrite_word, State.afterWrite_sp, memWrite_of_lt (word_succ_lt_space.mpr hsp)]
  rfl

/-- `PushReturn(ret)` with SP = 0x0001: the low byte is written at 0xFFFF, and the second address raises (R140). -/
theorem pushReturn_of_one {s : State} (h : s.sp = 0x0001#16) (ret : Word) (k : State → StepResult) :
    pushReturn ret s k = .fault (.busFault 0x10000 (s.bus.afterWrite 0xFFFF (loByte ret))) := by
  have hsp : s.sp - 2 = 0xFFFF#16 := by rw [h]; rfl
  simp only [pushReturn, hsp, memWrite_word, State.afterWrite_sp]
  rw [memWrite_of_le (by decide)]
  rfl

end Sys2Proof.Machine
end

