-- ==== Sys2Proof/Laws/PerInstr.lean ====
section
/-! SUPPORT. What is said of every instruction as syntax, one lemma per constructor: its opcode bytes select it in the
dispatch table they belong to, and they leave room for exactly its operand bytes (R60, R61, R65, R66). -/

namespace Sys2Proof.Laws.OpcodeBytes

/-- The opcode is one byte with an entry of the primary table, or the prefix and a byte with an entry of the extended
table; the rest of the length is the operand's. -/
def Statement (i : Instr) : Prop :=
  ((∃ b, opcodeBytes i = [b] ∧ b ≠ cbPrefix ∧ decodePrimary b = some i ∧ i.format ≠ .cb) ∨
    (∃ x, opcodeBytes i = [cbPrefix, x] ∧ decodeCb x = some i ∧ i.format = .cb)) ∧
  ∀ operand, i.format.accepts operand = true → (opcodeBytes i).length + (operandBytes operand).length = i.length

/-- The argument shared by the lemmas of the primary table. -/
theorem of_primary {i : Instr} {b : Byte} (hb : opcodeBytes i = [b]) (hp : b ≠ cbPrefix)
    (hd : decodePrimary b = some i) (hf : i.format ≠ .cb) : Statement i := by
  refine ⟨.inl ⟨b, hb, hp, hd, hf⟩, fun operand h => ?_⟩
  rw [hb]
  unfold Instr.length
  revert h hf
  cases i.format <;> cases operand <;> simp [Format.accepts, Format.length, operandBytes]

/-- The argument shared by the lemmas of the extended table. -/
theorem of_cb {i : Instr} {x : Byte} (hb : opcodeBytes i = [cbPrefix, x]) (hd : decodeCb x = some i)
    (hf : i.format = .cb) : Statement i := by
  refine ⟨.inr ⟨x, hb, hd, hf⟩, fun operand h => ?_⟩
  rw [hb]
  unfold Instr.length
  revert h
  rw [hf]
  cases operand <;> simp [Format.accepts, Format.length, operandBytes]

theorem rlcA : Statement .rlcA := of_primary rfl (by decide) (by decide) (by decide)
theorem decB : Statement .decB := of_primary rfl (by decide) (by decide) (by decide)
theorem ldBU8 : Statement .ldBU8 := of_primary rfl (by decide) (by decide) (by decide)
theorem incC : Statement .incC := of_primary rfl (by decide) (by decide) (by decide)
theorem ldCU8 : Statement .ldCU8 := of_primary rfl (by decide) (by decide) (by decide)
theorem ldDeU16 : Statement .ldDeU16 := of_primary rfl (by decide) (by decide) (by decide)
theorem rla : Statement .rla := of_primary rfl (by decide) (by decide) (by decide)
theorem ldADe : Statement .ldADe := of_primary rfl (by decide) (by decide) (by decide)
theorem jrNzR8 : Statement .jrNzR8 := of_primary rfl (by decide) (by decide) (by decide)
theorem ldHlU16 : Statement .ldHlU16 := of_primary rfl (by decide) (by decide) (by decide)
theorem ldSpU16 : Statement .ldSpU16 := of_primary rfl (by decide) (by decide) (by decide)
theorem ldHldA : Statement .ldHldA := of_primary rfl (by decide) (by decide) (by decide)
theorem ldAU8 : Statement .ldAU8 := of_primary rfl (by decide) (by decide) (by decide)
theorem ldCA : Statement .ldCA := of_primary rfl (by decide) (by decide) (by decide)
theorem ldHlA : Statement .ldHlA := of_primary rfl (by decide) (by decide) (by decide)
theorem xorA : Statement .xorA := of_primary rfl (by decide) (by decide) (by decide)
theorem popBc : Statement .popBc := of_primary rfl (by decide) (by decide) (by decide)
theorem pushBc : Statement .pushBc := of_primary rfl (by decide) (by decide) (by decide)
theorem callZA16 : Statement .callZA16 := of_primary rfl (by decide) (by decide) (by decide)
theorem callA16 : Statement .callA16 := of_primary rfl (by decide) (by decide) (by decide)
theorem ldhU8A : Statement .ldhU8A := of_primary rfl (by decide) (by decide) (by decide)
theorem ldhCA : Statement .ldhCA := of_primary rfl (by decide) (by decide) (by decide)
theorem rlC : Statement .rlC := of_cb rfl (by decide) rfl
theorem bit7H : Statement .bit7H := of_cb rfl (by decide) rfl

end Sys2Proof.Laws.OpcodeBytes
end

