-- ==== Sys2Proof/Laws/Step.lean ====
section
/-! SUPPORT. What a call can do, and what a step can do: one lemma for each outcome of a call, and one equation for the
step, from which the statements about steps are derived. -/

namespace Sys2Proof.Machine

/-! ### Calls (R140, R142) -/

/-- A call whose addresses are all in range. -/
theorem call_of_ne {s : State} (hpc : s.pc ≠ 0xFFFF#16) (hsp : s.sp ≠ 0x0001#16) : call s = .next (afterCall s) := by
  simp only [call, memReadWord_of_ne hpc]
  rw [pushReturn_of_ne (by simpa using hsp)]
  simp [afterCall, callTarget, afterOperandRead]

/-- A call whose operand read faults: nothing has been pushed (R153). -/
theorem call_of_top {s : State} (hpc : s.pc = 0xFFFF#16) :
    call s = .fault (.busFault 0x10000 (s.bus.afterRead 0xFFFF)) := by
  simp only [call, hpc, memReadWord_top]

/-- A call whose push faults: the low byte has been written (R140). -/
theorem call_of_one {s : State} (hpc : s.pc ≠ 0xFFFF#16) (hsp : s.sp = 0x0001#16) :
    call s = .fault (.busFault 0x10000 ((afterOperandRead s).afterWrite 0xFFFF (loByte (s.pc + 2)))) := by
  simp only [call, memReadWord_of_ne hpc]
  rw [pushReturn_of_one (by simpa using hsp)]
  rfl

/-- Everything a call that goes on can have done. -/
theorem call_next {s t : State} : call s = .next t ↔ s.pc ≠ 0xFFFF#16 ∧ s.sp ≠ 0x0001#16 ∧ t = afterCall s := by
  by_cases hpc : s.pc = 0xFFFF#16
  · simp [call_of_top hpc, hpc]
  · by_cases hsp : s.sp = 0x0001#16
    · simp [call_of_one hpc hsp, hsp]
    · simp [call_of_ne hpc hsp, hpc, hsp, eq_comm]

/-! ### The step (R80) -/

/-- A step is the rule it dispatches, run on the fetched state, or the report that there is none. -/
theorem step_eq (s : State) :
    step s =
      match dispatched s with
      | some i => exec i (afterFetch s)
      | none =>
        .next { afterFetch s with
          status :=
            if firstByte s = cbPrefix then .unimplementedOpcode .cb (secondByte s) s.pc
            else .unimplementedOpcode .primary (firstByte s) s.pc } := by
  unfold dispatched afterFetch
  simp only [step, fetchDispatch, fetchByte_eq, firstByte, secondByte]
  split
  · simp only [BitVec.add_assoc]
    split <;> simp_all [afterPrefixFetch, raiseUnimplemented]
  · split <;> simp_all [afterOpcodeFetch, raiseUnimplemented]

@[simp] theorem afterFetch_status (s : State) : (afterFetch s).status = .ok := by
  unfold afterFetch; split <;> rfl
@[simp] theorem afterFetch_f (s : State) : (afterFetch s).f = s.f := by unfold afterFetch; split <;> rfl
@[simp] theorem afterFetch_sp (s : State) : (afterFetch s).sp = s.sp := by unfold afterFetch; split <;> rfl
@[simp] theorem afterFetch_mem (s : State) : (afterFetch s).bus.mem = s.bus.mem := by
  unfold afterFetch; split <;> rfl
@[simp] theorem afterFetch_oracleAt (s : State) : (afterFetch s).bus.oracleAt = s.bus.oracleAt := by
  unfold afterFetch; split <;> rfl

end Sys2Proof.Machine
end

