-- ==== Sys2Proof/Tests/Slice0.lean ====
section
/-! SUPPORT. The model's own tests. The expected results are the vectors V1-V70 of spec/95_test_vectors.md, the encodings
of 30_encoding.md and hand calculation from the rules; none is the model's own answer. After them, one witness for the
hypotheses of each statement that has some. -/

namespace Sys2Proof.Tests
open Sys2Proof.Machine

/-- The state with PC at `pc` and bytes loaded there. -/
def placed (pc : Word) (bytes : List Byte) (s : State) : State := State.loadAtPc { s with pc := pc } bytes

/-- The state with one more byte of RAM. -/
def withByte (addr : Nat) (v : Byte) (s : State) : State :=
  { s with bus := { s.bus with mem := s.bus.mem.write addr v } }

/-- The step goes on to a state of which `p` holds. -/
def stepsTo (s : State) (p : State → Bool) : Bool :=
  match step s with
  | .next t => p t
  | .fault _ => false
  | .refused _ => false

/-- The step reports `Ok` and leaves a state of which `p` holds. -/
def okTo (s : State) (p : State → Bool) : Bool := stepsTo s fun t => decide (t.status = .ok) && p t

/-- The step faults at `addr` with a bus of which `p` holds. -/
def faultsAt (s : State) (addr : Nat) (p : Bus → Bool) : Bool :=
  match step s with
  | .next _ => false
  | .fault (.busFault a bus) => decide (a = addr) && p bus
  | .refused _ => false

/-- The newest access on the bus. -/
def lastAccess (bus : Bus) : Option BusAccess := bus.history.head?

/-! ### WellFormed refuses an ill-formed term for each check -/

theorem smoke_operand_missing : AsmInstr.wellFormed ⟨.ldBU8, .none⟩ = false := by decide
theorem smoke_operand_of_wrong_kind : AsmInstr.wellFormed ⟨.jrNzR8, .u8 5⟩ = false := by decide
theorem smoke_operand_where_none_belongs : AsmInstr.wellFormed ⟨.rlC, .u8 0⟩ = false := by decide
theorem smoke_u8_too_large : AsmInstr.wellFormed ⟨.ldAU8, .u8 256⟩ = false := by decide
theorem smoke_r8_too_low : AsmInstr.wellFormed ⟨.jrNzR8, .r8 (-129)⟩ = false := by decide
theorem smoke_r8_too_high : AsmInstr.wellFormed ⟨.jrNzR8, .r8 128⟩ = false := by decide
theorem smoke_u16_too_large : AsmInstr.wellFormed ⟨.callA16, .u16 65536⟩ = false := by decide
theorem smoke_well_formed : AsmInstr.wellFormed ⟨.jrNzR8, .r8 (-128)⟩ = true := by decide

/-! ### Every constructor's word, bit by bit from R61, R65 and R66 -/

theorem test_decode_immediate_loads :
    decode [0b00000110#8, 0xAB] = .insn ⟨.ldBU8, .u8 0xAB⟩ [] ∧ decode [0b00001110#8, 0x81] = .insn ⟨.ldCU8, .u8 0x81⟩ [] ∧
    decode [0b00111110#8, 0x05] = .insn ⟨.ldAU8, .u8 5⟩ [] ∧
    decode [0b00010001#8, 0x34, 0x12] = .insn ⟨.ldDeU16, .u16 0x1234⟩ [] ∧
    decode [0b00100001#8, 0x00, 0xC0] = .insn ⟨.ldHlU16, .u16 0xC000⟩ [] ∧
    decode [0b00110001#8, 0xFE, 0xFF] = .insn ⟨.ldSpU16, .u16 0xFFFE⟩ [] := by decide
theorem test_decode_register_and_memory_moves :
    decode [0b00011010#8] = .insn ⟨.ldADe, .none⟩ [] ∧ decode [0b00110010#8] = .insn ⟨.ldHldA, .none⟩ [] ∧
    decode [0b01110111#8] = .insn ⟨.ldHlA, .none⟩ [] ∧ decode [0b01001111#8] = .insn ⟨.ldCA, .none⟩ [] ∧
    decode [0b11100000#8, 0x80] = .insn ⟨.ldhU8A, .u8 0x80⟩ [] ∧ decode [0b11100010#8] = .insn ⟨.ldhCA, .none⟩ [] := by
  decide
theorem test_decode_alu_and_rotates :
    decode [0b00001100#8] = .insn ⟨.incC, .none⟩ [] ∧ decode [0b00000101#8] = .insn ⟨.decB, .none⟩ [] ∧
    decode [0b10101111#8] = .insn ⟨.xorA, .none⟩ [] ∧ decode [0b00000100#8] = .insn ⟨.rlcA, .none⟩ [] ∧
    decode [0b00010111#8] = .insn ⟨.rla, .none⟩ [] ∧ decode [0b11001011#8, 0b00010001#8] = .insn ⟨.rlC, .none⟩ [] ∧
    decode [0b11001011#8, 0b01111100#8] = .insn ⟨.bit7H, .none⟩ [] := by decide
theorem test_decode_stack_and_control :
    decode [0b11000101#8] = .insn ⟨.pushBc, .none⟩ [] ∧ decode [0b11000001#8] = .insn ⟨.popBc, .none⟩ [] ∧
    decode [0b00100000#8, 0x80] = .insn ⟨.jrNzR8, .r8 (-128)⟩ [] ∧
    decode [0b11001101#8, 0x34, 0x12] = .insn ⟨.callA16, .u16 0x1234⟩ [] ∧
    decode [0b11001100#8, 0x34, 0x12] = .insn ⟨.callZA16, .u16 0x1234⟩ [] := by decide
theorem test_decode_rejects :
    decode [0xC9, 0x01] = .unimplemented .primary 0xC9 [0x01] ∧ decode [0xCB, 0x00] = .unimplemented .cb 0x00 [] ∧
    decode [0xCB, 0xCB] = .unimplemented .cb 0xCB [] ∧ decode [0xCD, 0x00] = .truncated := by decide
/-- The byte order of a table word: opcode_table.json's match of LD DE,u16 and of RL C. -/
theorem test_table_words :
    decodeTableWord 24 0x110000 = some .ldDeU16 ∧ decodeTableWord 16 0xCB11 = some .rlC ∧
    decodeTableWord 16 0x2000 = some .jrNzR8 ∧ decodeTableWord 8 0xE2 = some .ldhCA ∧
    decodeTableWord 8 0x00 = none := by decide
theorem test_table_word_runs_first :
    okTo (State.reset.withFetchWord 16 0xCB7C) (fun t => t.f == 0x20 && t.pc == 2) = true := by decide
/-- The assembler's offset for a target (R70), and the range's ends. -/
theorem test_jr_operand :
    jrOperand 0x0003 0x0002 = some (.r8 (-3)) ∧ jrOperand 0x0100 0x0181 = some (.r8 127) ∧
    jrOperand 0x0100 0x0082 = some (.r8 (-128)) ∧ jrOperand 0x0100 0x0182 = none := by decide

/-- The text of R70, as the listings of P1 and P3 print it. -/
theorem test_assembly_text :
    AsmInstr.text ⟨.ldhU8A, .u8 0x80⟩ = "LDH (0x80),A" ∧ AsmInstr.text ⟨.jrNzR8, .r8 (-2)⟩ = "JR NZ,-2" := by decide

/-! ### Loads and stores: V1-V20 -/

theorem test_V2_LD_B_operand_wraps :
    okTo (placed 0xFFFF [0x06, 0x3C] .reset) (fun t => t.b == 0x3C && t.pc == 0x0001) = true := by decide
theorem test_V3_LD_C : okTo (placed 0 [0x0E, 0x81] .reset) (fun t => t.c == 0x81 && t.pc == 2) = true := by decide
theorem test_V4_LD_A : okTo (placed 0 [0x3E, 0x05] .reset) (fun t => t.a == 0x05 && t.pc == 2) = true := by decide
theorem test_V6_LD_DE_operand_wraps :
    okTo (placed 0xFFFE [0x11, 0x34, 0x12] .reset) (fun t => t.d == 0x12 && t.e == 0x34 && t.pc == 1) = true := by decide
theorem test_V7_LD_HL :
    okTo (placed 0 [0x21, 0x00, 0xC0] .reset) (fun t => t.h == 0xC0 && t.l == 0 && t.pc == 3) = true := by decide
theorem test_V9_LD_SP_at_FFFD :
    okTo (placed 0xFFFD [0x31, 0x00, 0xD0] .reset) (fun t => t.sp == 0xD000 && t.pc == 0) = true := by decide
theorem test_V10_LD_SP_at_FFFE_faults :
    faultsAt (placed 0xFFFE [0x31, 0x00] .reset) 0x10000 (fun bus => bus.history.length == 2) = true := by decide
theorem test_V11_LD_A_DE :
    okTo (placed 0 [0x1A] (withByte 0xC010 0x5A { State.reset with d := 0xC0, e := 0x10 }))
      (fun t => t.a == 0x5A && t.pc == 1) = true := by decide
theorem test_V13_LD_HLd_borrows :
    okTo (placed 0 [0x32] { State.reset with a := 0x22, h := 0x12 })
      (fun t => t.hl == 0x11FF && t.bus.mem.read 0x1200 == 0x22) = true := by decide
theorem test_V14_LD_HLd_wraps :
    okTo (placed 0x0100 [0x32] { State.reset with a := 0x33 })
      (fun t => t.hl == 0xFFFF && t.bus.mem.read 0 == 0x33) = true := by decide
theorem test_V15_LD_HL_A :
    okTo (placed 0 [0x77] { State.reset with a := 0x77, h := 0xC0 })
      (fun t => t.bus.mem.read 0xC000 == 0x77 && t.hl == 0xC000) = true := by decide
theorem test_V16_LD_C_A :
    okTo (placed 0 [0x4F] { State.reset with a := 0x9C, f := 0xF0 }) (fun t => t.c == 0x9C && t.f == 0xF0) = true := by
  decide
theorem test_V18_LDH_u8_top :
    okTo (placed 0 [0xE0, 0xFF] { State.reset with a := 0x3C })
      (fun t => t.bus.mem.read 0xFFFF == 0x3C && t.pc == 2) = true := by decide
theorem test_V19_LDH_C_bottom :
    okTo (placed 0 [0xE2] { State.reset with a := 0x42 }) (fun t => t.bus.mem.read 0xFF00 == 0x42) = true := by decide

/-! ### Increment, decrement, exclusive-OR: V21-V28 -/

theorem test_V22_INC_C_wraps :
    okTo (placed 0 [0x0C] { State.reset with c := 0xFF }) (fun t => t.c == 0 && t.f == 0) = true := by decide
theorem test_V24_DEC_B_to_zero_clears_Z :
    okTo (placed 0 [0x05] { State.reset with b := 1, f := 0xF0 }) (fun t => t.b == 0 && t.f == 0x70) = true := by decide
theorem test_V26_DEC_B_wraps_and_sets_Z :
    okTo (placed 0 [0x05] .reset) (fun t => t.b == 0xFF && t.f == 0x80) = true := by decide
theorem test_V28_XOR_A_keeps_flags :
    okTo (placed 0 [0xAF] { State.reset with a := 0x5A, f := 0x70 }) (fun t => t.a == 0 && t.f == 0xF0) = true := by decide

/-! ### Rotates and bit test: V29-V43 -/

theorem test_V29_RLC_A :
    okTo (placed 0 [0x04] { State.reset with a := 0x85 }) (fun t => t.a == 0x0B && t.f == 0x10) = true := by decide
theorem test_V30_RLC_A_ignores_carry :
    okTo (placed 0 [0x04] { State.reset with a := 0x01, f := 0x10 }) (fun t => t.a == 0x02 && t.f == 0) = true := by decide
theorem test_V34_RLA_takes_carry :
    okTo (placed 0 [0x17] { State.reset with a := 0x01, f := 0x10 }) (fun t => t.a == 0x03 && t.f == 0) = true := by decide
theorem test_V35_RLA_keeps_flags :
    okTo (placed 0 [0x17] { State.reset with a := 0xFF, f := 0xE0 }) (fun t => t.a == 0xFE && t.f == 0xF0) = true := by
  decide
theorem test_V37_RL_C_to_zero :
    okTo (placed 0 [0xCB, 0x11] { State.reset with c := 0x80 }) (fun t => t.c == 0 && t.f == 0x10) = true := by decide
theorem test_V39_RL_C_clears_N_and_H :
    okTo (placed 0 [0xCB, 0x11] { State.reset with c := 0x40, f := 0xE0 })
      (fun t => t.c == 0x80 && t.f == 0x80 && t.pc == 2) = true := by decide
theorem test_V42_BIT_7_H_clear :
    okTo (placed 0 [0xCB, 0x7C] { State.reset with h := 0x7F, f := 0xD0 }) (fun t => t.f == 0x30) = true := by decide
theorem test_V70_BIT_7_H_prefix_wraps :
    okTo (placed 0xFFFF [0xCB, 0x7C] { State.reset with h := 0x80 }) (fun t => t.f == 0xA0 && t.pc == 1) = true := by decide

/-! ### Stack: V44-V48 -/

theorem test_V46_PUSH_BC_wraps :
    okTo (placed 0x0100 [0xC5] { State.reset with b := 0x12, c := 0x34, sp := 1 })
      (fun t => t.bus.mem.read 0 == 0x12 && t.bus.mem.read 0xFFFF == 0x34 && t.sp == 0xFFFF) = true := by decide
theorem test_V44_PUSH_BC_writes_high_byte_first :
    okTo (placed 0 [0xC5] { State.reset with b := 0x12, c := 0x34, sp := 0xFFFE })
      (fun t => t.bus.history == [.write 0xFFFC 0x34, .write 0xFFFD 0x12, .read 0 0xC5]) = true := by decide
theorem test_V48_POP_BC_wraps :
    okTo (placed 0x0100 [0xC1] (withByte 0xFFFF 0x34 (withByte 0 0x12 { State.reset with sp := 0xFFFF })))
      (fun t => t.bc == 0x1234 && t.sp == 1) = true := by decide

/-! ### Control transfer: V49-V64 -/

theorem test_V49_JR_NZ_source_example :
    okTo (placed 0x0100 [0x20, 0xFE] .reset) (fun t => t.pc == 0x0100) = true := by decide
theorem test_V55_JR_NZ_wraps_back :
    okTo (placed 0 [0x20, 0x80] .reset) (fun t => t.pc == 0xFF82) = true := by decide
theorem test_V57_CALL :
    okTo (placed 0x0200 [0xCD, 0x34, 0x12] { State.reset with sp := 0xFFFE })
      (fun t => t.pc == 0x1234 && t.sp == 0xFFFC && t.bus.history ==
        [.write 0xFFFD 0x02, .write 0xFFFC 0x03, .read 0x0202 0x12, .read 0x0201 0x34, .read 0x0200 0xCD]) = true := by
  decide
theorem test_V61_CALL_faults_after_low_byte :
    faultsAt (placed 0x0200 [0xCD, 0x00, 0x03] { State.reset with sp := 1 }) 0x10000
      (fun bus => lastAccess bus == some (.write 0xFFFF 0x03) && bus.mem.read 0xFFFF == 0x03) = true := by decide
theorem test_V58_CALL_Z_taken :
    okTo (placed 0x0200 [0xCC, 0x34, 0x12] { State.reset with f := 0x80, sp := 0xFFFE })
      (fun t => t.pc == 0x1234 && t.bus.mem.read 0xFFFC == 0x03 && t.bus.mem.read 0xFFFD == 0x02) = true := by decide
theorem test_V64_CALL_Z_not_taken_reads_no_operand :
    okTo (placed 0xFFFE [0xCC, 0x00] { State.reset with sp := 0xD000 })
      (fun t => t.pc == 1 && t.sp == 0xD000 && t.bus.history == [.read 0xFFFE 0xCC]) = true := by decide

/-! ### Unimplemented opcodes: V65-V69 -/

theorem test_V67_unimplemented_at_FFFF :
    stepsTo (placed 0xFFFF [0x76] .reset)
      (fun t => decide (t.status = .unimplementedOpcode .primary 0x76 0xFFFF) && t.pc == 0) = true := by decide
theorem test_V69_prefix_twice :
    stepsTo (placed 0x0010 [0xCB, 0xCB] .reset)
      (fun t => decide (t.status = .unimplementedOpcode .cb 0xCB 0x0010) && t.pc == 0x0012) = true := by decide

/-! ### Memory -/

theorem test_writing_the_unlisted_value_unlists :
    Memory.write (Memory.write (Memory.write [] 5 1) 3 2) 5 0 = [(3, 2)] := by decide
theorem test_launch_memory_is_canonical : Memory.wf (Memory.load [] 0xFFFF [0x06, 0x3C]) = true := by decide

/-! ### Witnesses: states and operands that meet the hypotheses of the statements -/

/-- A small machine: Z set, a stack at 0xD000, bytes at 0x0100. -/
def small (bytes : List Byte) : State :=
  placed 0x0100 bytes { State.reset with f := 0x80, sp := 0xD000, b := 0x12, c := 0x34, a := 0x56, h := 0x01, l := 0x01 }

/-- The same machine with Z clear. -/
def smallNz (bytes : List Byte) : State := { small bytes with f := 0x70 }

theorem witness_DecodeEncodeRoundTrip :
    AsmInstr.wellFormed ⟨.ldBU8, .u8 255⟩ = true ∧ AsmInstr.wellFormed ⟨.jrNzR8, .r8 127⟩ = true ∧
    AsmInstr.wellFormed ⟨.callA16, .u16 65535⟩ = true ∧ AsmInstr.wellFormed ⟨.rlC, .none⟩ = true := by decide
theorem witness_EncodeDecodeRoundTrip : decode [0x20, 0x7F, 0x99] = .insn ⟨.jrNzR8, .r8 127⟩ [0x99] := by decide
theorem witness_DecoderIsTotal : 3 ≤ [0xCB#8, 0x11#8, 0x00#8].length := by decide
theorem witness_LengthFoundFromFirstByte :
    decode (0xCC#8 :: [0x00, 0x02]) = .insn ⟨.callZA16, .u16 0x0200⟩ [] ∧
    decode (0xCB#8 :: [0xFF, 0x01]) = .unimplemented .cb 0xFF [0x01] := by decide
theorem witness_JrTargetAssembles :
    jrOperand (0xFF00#16).toNat (0xFE82#16).toNat = some (.r8 (-128)) ∧
    jrOperand (0x0000#16).toNat (0x0081#16).toNat = some (.r8 127) ∧
    jrOperand (0x0000#16).toNat (0x0082#16).toNat = none := by decide
theorem witness_StepRunsDispatchedInstruction_primary :
    firstByte (small [0x04]) ≠ cbPrefix ∧ decodePrimary (firstByte (small [0x04])) = some .rlcA := by decide
theorem witness_StepRunsDispatchedInstruction_extended :
    firstByte (small [0xCB, 0x11]) = cbPrefix ∧ decodeCb (secondByte (small [0xCB, 0x11])) = some .rlC := by decide

/-- The three bytes at PC, in RAM, decode to the instruction. -/
def decodesAtPc (s : State) (a : AsmInstr) (rest : List Byte) : Prop :=
  (s.bus.isOracle s.pc.toNat = false ∧ s.bus.isOracle (s.pc + 1).toNat = false ∧
    s.bus.isOracle (s.pc + 2).toNat = false) ∧
  decode [s.bus.mem.read s.pc.toNat, s.bus.mem.read (s.pc + 1).toNat, s.bus.mem.read (s.pc + 2).toNat] = .insn a rest

theorem witness_StepRunsDecodedInstruction :
    decodesAtPc (small [0xCB, 0x7C]) ⟨.bit7H, .none⟩ [0] ∧ decodesAtPc (small [0x06, 0xFF]) ⟨.ldBU8, .u8 255⟩ [0] := by
  unfold decodesAtPc; decide
theorem witness_DecodedOperandIsUsed_bytes :
    decodesAtPc (small [0x06, 0xFF]) ⟨.ldBU8, .u8 255⟩ [0] ∧ decodesAtPc (small [0x0E, 0xFF]) ⟨.ldCU8, .u8 255⟩ [0] ∧
    decodesAtPc (small [0x3E, 0x00]) ⟨.ldAU8, .u8 0⟩ [0] := by unfold decodesAtPc; decide
theorem witness_DecodedOperandIsUsed_words :
    decodesAtPc (small [0x11, 0xFF, 0xFF]) ⟨.ldDeU16, .u16 0xFFFF⟩ [] ∧
    decodesAtPc (small [0x21, 0x34, 0x12]) ⟨.ldHlU16, .u16 0x1234⟩ [] ∧
    decodesAtPc (placed 0xFFFD [0x31, 0x00, 0xD0] .reset) ⟨.ldSpU16, .u16 0xD000⟩ [] ∧
    (placed 0xFFFD [0x31, 0x00, 0xD0] .reset).pc ≠ 0xFFFE#16 := by unfold decodesAtPc; decide
theorem witness_DecodedOperandIsUsed_control :
    decodesAtPc (smallNz [0x20, 0x80]) ⟨.jrNzR8, .r8 (-128)⟩ [0] ∧ flagZ (smallNz [0x20, 0x80]).f = false ∧
    decodesAtPc (small [0xCD, 0x00, 0x03]) ⟨.callA16, .u16 0x0300⟩ [] ∧
    decodesAtPc (small [0xCC, 0x00, 0x03]) ⟨.callZA16, .u16 0x0300⟩ [] ∧ flagZ (small [0xCC, 0x00, 0x03]).f = true ∧
    (small [0xCC, 0x00, 0x03]).pc ≠ 0xFFFE#16 ∧ (small [0xCC, 0x00, 0x03]).sp ≠ 0x0001#16 := by
  unfold decodesAtPc; decide
theorem witness_DecodedOperandIsUsed_store :
    decodesAtPc (small [0xE0, 0xFF]) ⟨.ldhU8A, .u8 255⟩ [0] ∧ (small [0xE0, 0xFF]).bus.mem.wf = true ∧
    (small [0xE0, 0xFF]).bus.isOracle (0xFF00 + 255) = false := by unfold decodesAtPc; decide

theorem witness_UnimplementedPrimaryStep :
    firstByte (small [0x00]) ≠ cbPrefix ∧ decodePrimary (firstByte (small [0x00])) = none := by decide
theorem witness_UnimplementedExtendedStep :
    firstByte (small [0xCB, 0xCB]) = cbPrefix ∧ decodeCb (secondByte (small [0xCB, 0xCB])) = none := by decide
theorem witness_step_goes_on : ∃ t, step (small [0x05]) = .next t := ⟨_, rfl⟩
theorem witness_step_reports : ∃ t, step (small [0x00]) = .next t := ⟨_, rfl⟩
theorem witness_StepFaultsExactly :
    (∃ addr bus, step (placed 0xFFFE [0x31] .reset) = .fault (.busFault addr bus)) ∧
    (∃ addr bus, step (placed 0xFFFE [0xCD] .reset) = .fault (.busFault addr bus)) ∧
    ∃ addr bus, step { small [0xCC, 0x00, 0x03] with sp := 1 } = .fault (.busFault addr bus) :=
  ⟨⟨_, _, rfl⟩, ⟨_, _, rfl⟩, ⟨_, _, rfl⟩⟩
theorem witness_SafeStepExactly :
    (∃ t, step (small [0xCD, 0x00, 0x03]) = .next t ∧ t.status = .ok) ∧
    dispatched (small [0xCD, 0x00, 0x03]) = some .callA16 := ⟨⟨_, rfl, rfl⟩, by decide⟩
theorem witness_PcAfterStep_plain :
    (∃ t, step (small [0x05]) = .next t) ∧ dispatched (small [0x05]) = some .decB ∧ transfersControl .decB = false :=
  ⟨⟨_, rfl⟩, by decide, rfl⟩
theorem witness_PcAfterStep_jump_not_taken :
    (∃ t, step (small [0x20, 0x10]) = .next t) ∧ dispatched (small [0x20, 0x10]) = some .jrNzR8 ∧
    flagZ (small [0x20, 0x10]).f = true := ⟨⟨_, rfl⟩, by decide, by decide⟩
theorem witness_PcAfterStep_call_not_taken :
    (∃ t, step (smallNz [0xCC]) = .next t) ∧ dispatched (smallNz [0xCC]) = some .callZA16 ∧
    flagZ (smallNz [0xCC]).f = false := ⟨⟨_, rfl⟩, by decide, by decide⟩
theorem witness_LdSpLoadsWord :
    (small []).pc ≠ 0xFFFF#16 ∧ ({ small [] with pc := 0xFFFE } : State).pc ≠ 0xFFFF#16 ∧
    ({ small [] with pc := 0xFFFF } : State).pc = 0xFFFF#16 := by decide
theorem witness_CallPushesAndJumps :
    ((small []).pc ≠ 0xFFFF#16 ∧ (small []).sp ≠ 0x0001#16) ∧
    ({ small [] with pc := 0xFFFF, sp := 1 } : State).pc = 0xFFFF#16 ∧
    (({ small [] with pc := 0xFFFE, sp := 1 } : State).pc ≠ 0xFFFF#16 ∧
      ({ small [] with pc := 0xFFFE, sp := 1 } : State).sp = 0x0001#16) := by decide
theorem witness_CallZTakenOnZSet :
    (small []).f.getLsbD 7 = true ∧ (small []).pc ≠ 0xFFFF#16 ∧ (small []).sp ≠ 0x0001#16 ∧
    ({ small [] with pc := 0xFFFF } : State).pc = 0xFFFF#16 ∧ ({ small [] with sp := 1 } : State).sp = 0x0001#16 ∧
    (smallNz []).f.getLsbD 7 = false := by decide
theorem witness_RotatesAreNineBit :
    (∃ t, exec .rla (small []) = .next t) ∧ (∃ t, exec .rlC (small []) = .next t) ∧
    ∃ t, exec .rlcA (small []) = .next t := ⟨⟨_, rfl⟩, ⟨_, rfl⟩, ⟨_, rfl⟩⟩
theorem witness_PushPopRoundTrip :
    (small []).bus.mem.wf = true ∧ (small []).bus.isOracle ((small []).sp - 1).toNat = false ∧
    (small []).bus.isOracle ((small []).sp - 2).toNat = false ∧ (small []).pc ≠ 0xFFFF#16 ∧
    (small []).sp ≠ 0x0001#16 := by decide
theorem witness_RegistersNotWrittenAreKept :
    (∃ t, exec .pushBc (small []) = .next t) ∧ Reg8.b ∉ writtenRegs .pushBc ∧ writesSp .incC = false ∧
    (∃ t, exec .incC (small []) = .next t) ∧ (∃ t, exec .callZA16 (smallNz []) = .next t) ∧
    flagZ (smallNz []).f = false := ⟨⟨_, rfl⟩, by decide, rfl, ⟨_, rfl⟩, ⟨_, rfl⟩, by decide⟩
theorem witness_UnaccessedRegistersHaveNoPart :
    (Reg8.d ∉ writtenRegs .decB ∧ Reg8.d ∉ readRegs .decB) ∧ writesSp .decB = false ∧
    flagZ (smallNz [0xCC]).f = false := by decide
theorem witness_FlagBitsNotWrittenAreKept :
    (∃ t, exec .decB (small []) = .next t) ∧ 4 ∉ writtenFlagBits .decB := ⟨⟨_, rfl⟩, by decide⟩
theorem witness_BytesNotStoredAreKept :
    (∃ t, exec .pushBc (small []) = .next t) ∧ 0xD000 ∉ storedAddrs .pushBc (small []) ∧
    (∃ t, exec .incC (small []) = .next t) ∧ 0 ∉ storedAddrs .incC (small []) :=
  ⟨⟨_, rfl⟩, by decide, ⟨_, rfl⟩, by decide⟩
theorem witness_FlagWriteChangesOneBit : 7 < 8 ∧ 0 < 8 := by decide
theorem witness_StepKeepsInvariant : Inv (small [0xC5]) ∧ ∃ t, step (small [0xC5]) = .next t :=
  ⟨⟨⟨by decide, by decide, by decide⟩, by unfold lowNibbleZero; decide⟩, ⟨_, rfl⟩⟩
/-- Both places of a fault, each on one state whose bus is in order. -/
theorem witness_FaultLeavesBusInOrder_operand :
    (placed 0xFFFE [0x31] .reset).bus.Ok ∧ (placed 0xFFFE [0x31] .reset).pc = 0xFFFE#16 ∧
    ∃ addr bus, step (placed 0xFFFE [0x31] .reset) = .fault (.busFault addr bus) :=
  ⟨⟨by decide, by decide, by decide⟩, by decide, ⟨_, _, rfl⟩⟩
theorem witness_FaultLeavesBusInOrder_push :
    ({ small [0xCD, 0x00, 0x03] with sp := 1 } : State).bus.Ok ∧
    ({ small [0xCD, 0x00, 0x03] with sp := 1 } : State).pc ≠ 0xFFFE#16 ∧
    ∃ addr bus, step { small [0xCD, 0x00, 0x03] with sp := 1 } = .fault (.busFault addr bus) :=
  ⟨⟨by decide, by decide, by decide⟩, by decide, ⟨_, _, rfl⟩⟩
theorem witness_LaunchIsConsistent : (small [0x77]).bus.mem.wf = true ∧ (small [0x77]).bus.history = [] := by decide
theorem witness_StepKeepsRamConsistent :
    RamConsistent (small [0x77]).bus.mem (small [0x77]).bus ∧ ∃ t, step (small [0x77]) = .next t :=
  ⟨⟨by decide, fun _ _ => rfl, trivial⟩, ⟨_, rfl⟩⟩
theorem witness_ReadsPrecedeWrites :
    (∃ bus t, step (small [0xC5]) = .next t ∧ t.bus = bus) ∧
    ∃ bus addr, step { small [0xCD, 0x00, 0x03] with sp := 1 } = .fault (.busFault addr bus) :=
  ⟨⟨_, _, rfl, rfl⟩, ⟨_, _, rfl⟩⟩
/-- Every storing instruction meets the hypotheses: PC after it is an address it stored to. -/
def storesAtNextPc (s : State) (i : Instr) : Prop :=
  dispatched s = some i ∧ s.bus.mem.wf = true ∧ s.bus.oracleAt = [] ∧
  ∃ t, step s = .next t ∧ t.pc.toNat ∈ storedAddrs i (afterFetch s)

theorem witness_StoreSeenByNextFetch_loads :
    storesAtNextPc (small [0x77]) .ldHlA ∧ storesAtNextPc (small [0x32]) .ldHldA ∧
    storesAtNextPc (placed 0xFF10 [0xE0, 0x12] .reset) .ldhU8A ∧
    storesAtNextPc (placed 0xFF33 [0xE2] { State.reset with c := 0x34 }) .ldhCA :=
  ⟨⟨by decide, by decide, rfl, _, rfl, by decide⟩, ⟨by decide, by decide, rfl, _, rfl, by decide⟩,
    ⟨by decide, by decide, rfl, _, rfl, by decide⟩, ⟨by decide, by decide, rfl, _, rfl, by decide⟩⟩
theorem witness_StoreSeenByNextFetch_stack :
    storesAtNextPc { small [0xC5] with sp := 0x0102 } .pushBc ∧
    storesAtNextPc (small [0xCD, 0xFF, 0xCF]) .callA16 ∧ storesAtNextPc (small [0xCC, 0xFE, 0xCF]) .callZA16 :=
  ⟨⟨by decide, by decide, rfl, _, rfl, by decide⟩, ⟨by decide, by decide, rfl, _, rfl, by decide⟩,
    ⟨by decide, by decide, rfl, _, rfl, by decide⟩⟩
theorem witness_StoreSeenByNextFetch_completes :
    firstByte (small [0x77]) = 0x77#8 ∧ (small [0x77]).hl = (small [0x77]).pc + 1 ∧
    (small [0x77]).bus.mem.wf = true ∧ (small [0x77]).bus.isOracle (small [0x77]).hl.toNat = false := by decide
theorem witness_RamStepIgnoresHistory : (small [0x77]).bus.oracleAt = [] := by decide
theorem witness_SafeRun : SafeRun 1 (small [0x05]) := ⟨_, rfl, rfl, trivial⟩
theorem witness_HaltingDriverStops :
    SafeRun 1 (small [0x05]) ∧ (∃ t, drive .halt 1 (small [0x05]) = .ran t ∧
      ∃ u, step t = .next u ∧ u.status = .unimplementedOpcode .primary 0x00 0x0101) :=
  ⟨witness_SafeRun, ⟨_, rfl, ⟨_, rfl, rfl⟩⟩⟩

end Sys2Proof.Tests
end

section
/-! The flag writes bit by bit: one rule for `withBit`, which gives the four flag writes (R9, R25). -/

namespace Sys2Proof.Machine

/-- The bits of a byte after a write of its bit `n` (R9). -/
theorem getLsbD_withBit {n : Nat} (hn : n < 8) (v : Bool) (x : Byte) (i : Nat) :
    (withBit n v x).getLsbD i = if i = n then v else x.getLsbD i := by
  by_cases hi : i = n
  · subst hi
    cases v <;> simp [withBit, hn]
  · cases v
    · simpa [withBit, hi, Ne.symm hi] using x.lt_of_getLsbD
    · simp [withBit, hi, Ne.symm hi]

/-- Settles O45: each flag reads its bit of F by definition, and each flag write is `withBit` at that bit. -/
theorem flagWriteChangesOneBit : Obligations.FlagWriteChangesOneBit := by
  refine ⟨fun f => ⟨rfl, rfl, rfl, rfl⟩, fun f v n _ => ⟨?_, ?_, ?_, ?_⟩⟩
  · exact getLsbD_withBit (by decide) v f n
  · exact getLsbD_withBit (by decide) v f n
  · exact getLsbD_withBit (by decide) v f n
  · exact getLsbD_withBit (by decide) v f n

end Sys2Proof.Machine
end

section
/-! Creation: the zero word and the four clear flags of a zero F, and the pairs of a created machine (R21, R25, R32). -/

namespace Sys2Proof.Machine

@[simp] theorem wordOfBytes_zero : wordOfBytes 0#8 0#8 = 0#16 := by decide

@[simp] theorem flagZ_zero : flagZ 0#8 = false := by decide
@[simp] theorem flagN_zero : flagN 0#8 = false := by decide
@[simp] theorem flagH_zero : flagH 0#8 = false := by decide
@[simp] theorem flagC_zero : flagC 0#8 = false := by decide

@[simp] theorem State.create_bc (bus : Bus) : (State.create bus).bc = 0#16 := wordOfBytes_zero
@[simp] theorem State.create_de (bus : Bus) : (State.create bus).de = 0#16 := wordOfBytes_zero
@[simp] theorem State.create_hl (bus : Bus) : (State.create bus).hl = 0#16 := wordOfBytes_zero

/-- Settles O47: registers and pointers by the `State.create_*` lemmas, flags and pairs as views of zero bytes; the
reset state is created with `Bus.initial`. -/
theorem resetRegistersAreZero : Obligations.ResetRegistersAreZero := by
  refine ⟨fun bus => ⟨?a, ?b, ?c, ?d, ?e, ?h, ?l, ?flags, ?pc, ?sp, ?pairs⟩, Bus.initial, rfl⟩
  case flags => exact ⟨State.create_f bus, flagZ_zero, flagN_zero, flagH_zero, flagC_zero⟩
  case pairs => exact ⟨State.create_bc bus, State.create_de bus, State.create_hl bus, State.create_bus bus⟩
  all_goals simp

end Sys2Proof.Machine
end

section
/-! The two dispatches of a step: which rule the first byte selects, which state that rule runs on, and the step that
runs it (R80-R83). -/

namespace Sys2Proof.Machine

/-- A first byte other than the prefix is looked up in the primary table (R82). -/
theorem dispatched_of_ne_prefix {s : State} (h : firstByte s ≠ cbPrefix) :
    dispatched s = decodePrimary (firstByte s) := if_neg h

/-- After the prefix, the second byte is looked up in the extended table (R83). -/
theorem dispatched_of_prefix {s : State} (h : firstByte s = cbPrefix) :
    dispatched s = decodeCb (secondByte s) := if_pos h

theorem afterFetch_of_ne_prefix {s : State} (h : firstByte s ≠ cbPrefix) : afterFetch s = afterOpcodeFetch s :=
  if_neg h

theorem afterFetch_of_prefix {s : State} (h : firstByte s = cbPrefix) : afterFetch s = afterPrefixFetch s :=
  if_pos h

/-- A step whose opcode has a rule is that rule, run on the fetched state (R80). -/
theorem step_of_dispatched {s : State} {i : Instr} (h : dispatched s = some i) : step s = exec i (afterFetch s) := by
  rw [step_eq, h]

/-- Settles O8: the first byte decides both the table that selects the rule and the state the rule runs on. -/
theorem stepRunsDispatchedInstruction : Obligations.StepRunsDispatchedInstruction := by
  intro s i
  constructor
  case left =>
    intro hfirst hrule
    rw [← afterFetch_of_ne_prefix hfirst]
    exact step_of_dispatched ((dispatched_of_ne_prefix hfirst).trans hrule)
  case right =>
    intro hfirst hrule
    rw [← afterFetch_of_prefix hfirst]
    exact step_of_dispatched ((dispatched_of_prefix hfirst).trans hrule)

end Sys2Proof.Machine
end

section
/-! The loads and stores (R90-R101): the whole next state of each instruction, in every state. Every
address they access is the value of a register or in the high page, so none is out of range, and the rules of the shared
operations for such addresses give the next state. -/

namespace Sys2Proof.Machine

/-! ### Immediate loads: fetches at PC -/

theorem exec_ldBU8 (s : State) :
    exec .ldBU8 s =
      .next { s with b := s.bus.answer s.pc.toNat, pc := s.pc + 1, bus := s.bus.afterRead s.pc.toNat } := by
  rw [exec, execLdBU8, fetchByte_eq]

theorem exec_ldCU8 (s : State) :
    exec .ldCU8 s =
      .next { s with c := s.bus.answer s.pc.toNat, pc := s.pc + 1, bus := s.bus.afterRead s.pc.toNat } := by
  rw [exec, execLdCU8, fetchByte_eq]

theorem exec_ldAU8 (s : State) :
    exec .ldAU8 s =
      .next { s with a := s.bus.answer s.pc.toNat, pc := s.pc + 1, bus := s.bus.afterRead s.pc.toNat } := by
  rw [exec, execLdAU8, fetchByte_eq]

/-- Two increments of PC are one of two (R64). -/
theorem word_succ_succ (w : Word) : w + 1 + 1 = w + 2 := BitVec.add_assoc w 1 1

theorem exec_ldDeU16 (s : State) :
    exec .ldDeU16 s =
      .next { s with
        e := s.bus.answer s.pc.toNat
        d := (s.bus.afterRead s.pc.toNat).answer (s.pc + 1).toNat
        pc := s.pc + 2
        bus := (s.bus.afterRead s.pc.toNat).afterRead (s.pc + 1).toNat } := by
  simp only [exec, execLdDeU16, fetchByte_eq, word_succ_succ]

theorem exec_ldHlU16 (s : State) :
    exec .ldHlU16 s =
      .next { s with
        l := s.bus.answer s.pc.toNat
        h := (s.bus.afterRead s.pc.toNat).answer (s.pc + 1).toNat
        pc := s.pc + 2
        bus := (s.bus.afterRead s.pc.toNat).afterRead (s.pc + 1).toNat } := by
  simp only [exec, execLdHlU16, fetchByte_eq, word_succ_succ]

/-! ### Accesses at a register pair, and the copy without an access -/

theorem exec_ldADe (s : State) :
    exec .ldADe s = .next { s with a := s.bus.answer s.de.toNat, bus := s.bus.afterRead s.de.toNat } := by
  rw [exec, execLdADe, memRead_word, State.afterRead]

theorem exec_ldHldA (s : State) :
    exec .ldHldA s =
      .next { s with
        h := hiByte (s.hl - 1)
        l := loByte (s.hl - 1)
        bus := s.bus.afterWrite s.hl.toNat s.a } := by
  rw [exec, execLdHldA, memWrite_word]
  rfl

theorem exec_ldHlA (s : State) : exec .ldHlA s = .next { s with bus := s.bus.afterWrite s.hl.toNat s.a } := by
  rw [exec, execLdHlA, memWrite_word, State.afterWrite]

theorem exec_ldCA (s : State) : exec .ldCA s = .next { s with c := s.a } := rfl

/-! ### Stores in the high page -/

/-- The operand is fetched before the store, which the bus of the next state shows. -/
theorem exec_ldhU8A (s : State) :
    exec .ldhU8A s =
      .next { s with
        pc := s.pc + 1
        bus := (s.bus.afterRead s.pc.toNat).afterWrite (highPage (s.bus.answer s.pc.toNat)) s.a } := by
  rw [exec, execLdhU8A, fetchByte_eq, memWrite_highPage, State.afterWrite]

theorem exec_ldhCA (s : State) : exec .ldhCA s = .next { s with bus := s.bus.afterWrite (highPage s.c) s.a } := by
  rw [exec, execLdhCA, memWrite_highPage, State.afterWrite]

/-! ### The statements -/

/-- Settles O19: each of the three is one byte fetch, which completes in every state. -/
theorem immediateByteLoads : Obligations.ImmediateByteLoads :=
  ⟨⟨⟨rfl, rfl, rfl, rfl⟩, ⟨rfl, rfl, rfl, rfl⟩, ⟨rfl, rfl, rfl, rfl⟩⟩,
    fun s => ⟨exec_ldBU8 s, exec_ldCU8 s, exec_ldAU8 s⟩⟩

/-- Settles O20: each of the two is two byte fetches, the second at the incremented PC. -/
theorem immediateWordLoads : Obligations.ImmediateWordLoads :=
  ⟨⟨⟨rfl, rfl, rfl, rfl⟩, ⟨rfl, rfl, rfl, rfl⟩⟩, fun s => ⟨exec_ldDeU16 s, exec_ldHlU16 s⟩⟩

/-- Settles O22: the read is at the value of a pair, which is in range. -/
theorem ldALoadsFromDe : Obligations.LdALoadsFromDe := ⟨⟨rfl, rfl, rfl, rfl⟩, exec_ldADe⟩

/-- Settles O23: the write is at the value of a pair; HL is decremented after it. -/
theorem storesThroughHl : Obligations.StoresThroughHl :=
  ⟨⟨⟨rfl, rfl, rfl, rfl⟩, ⟨rfl, rfl, rfl, rfl⟩⟩, fun s => ⟨exec_ldHldA s, exec_ldHlA s⟩⟩

/-- Settles O24: the meaning is the copy itself. -/
theorem ldCCopiesA : Obligations.LdCCopiesA := ⟨⟨rfl, rfl, rfl, rfl⟩, exec_ldCA⟩

/-- Settles O25: the highest address a byte can select is 0xFFFF, so the write is in range. -/
theorem highPageStores : Obligations.HighPageStores :=
  ⟨⟨⟨rfl, rfl, rfl, rfl⟩, ⟨rfl, rfl, rfl, rfl⟩⟩, fun s => ⟨exec_ldhU8A s, exec_ldhCA s⟩⟩

end Sys2Proof.Machine
end

section
/-! The bit test (R123): the flags that BIT 7 writes, bit by bit and then as masks of the old F. -/

namespace Sys2Proof.Machine

/-- Bits 7, 6 and 5 are the flags that BIT 7 writes; the others are those of the old F. -/
theorem getLsbD_flagsAfterBit (tested : Bool) (f : Byte) (i : Nat) :
    (flagsAfterBit tested f).getLsbD i =
      if i = 7 then tested else if i = 5 then true else if i = 6 then false else f.getLsbD i := by
  rw [flagsAfterBit, withZ, withH, withN, getLsbD_withBit (by decide), getLsbD_withBit (by decide),
    getLsbD_withBit (by decide)]

/-- The mask 0x1F keeps C and bits 3..0, and so clears N; 0x20 sets H; Z alone depends on the tested bit. -/
theorem flagsAfterBit_eq_masks (tested : Bool) (f : Byte) :
    flagsAfterBit tested f = (f &&& 0x1F#8) ||| 0x20#8 ||| (if tested then 0x80#8 else 0x00#8) := by
  apply BitVec.eq_of_getLsbD_eq
  intro i hi
  rw [getLsbD_flagsAfterBit]
  cases tested with
  | false => interval_cases i <;> simp
  | true => interval_cases i <;> simp

theorem exec_bit7H (s : State) :
    exec .bit7H s =
      .next { s with f := (s.f &&& 0x1F#8) ||| 0x20#8 ||| (if s.h.getLsbD 7 then 0x80#8 else 0x00#8) } := by
  rw [exec, execBit7H, flagsAfterBit_eq_masks]

/-- Settles O32: the meaning writes F alone, and the three flag writes are the statement's masks. -/
theorem bitSevenHSetsZ : Obligations.BitSevenHSetsZ := ⟨⟨rfl, rfl, rfl, rfl⟩, exec_bit7H⟩

end Sys2Proof.Machine
end

section
/-! The stack instructions (R130, R131): the whole next state of each, in every state. SP is a register value at each
access, so it wraps before it is used as an address, and neither access can be out of range. -/

namespace Sys2Proof.Machine

/-- Two decrements of SP are one of two (R130). -/
theorem word_pred_pred (w : Word) : w - 1 - 1 = w - 2 := by bv_omega

theorem exec_pushBc (s : State) :
    exec .pushBc s =
      .next { s with
        sp := s.sp - 2
        bus := (s.bus.afterWrite (s.sp - 1).toNat s.b).afterWrite (s.sp - 2).toNat s.c } := by
  simp only [exec, execPushBc, memWrite_word, State.afterWrite, word_pred_pred]

theorem exec_popBc (s : State) :
    exec .popBc s =
      .next { s with
        c := s.bus.answer s.sp.toNat
        b := (s.bus.afterRead s.sp.toNat).answer (s.sp + 1).toNat
        sp := s.sp + 2
        bus := (s.bus.afterRead s.sp.toNat).afterRead (s.sp + 1).toNat } := by
  simp only [exec, execPopBc, memRead_word, State.afterRead, word_succ_succ]

/-- Settles O34: both writes are at values of SP, B's at the first decrement and C's at the second. -/
theorem pushBcStoresPair : Obligations.PushBcStoresPair := ⟨⟨rfl, rfl, rfl, rfl⟩, exec_pushBc⟩

/-- Settles O35: both reads are at values of SP; the second is answered by the bus after the first. -/
theorem popBcLoadsPair : Obligations.PopBcLoadsPair := ⟨⟨rfl, rfl, rfl, rfl⟩, exec_popBc⟩

end Sys2Proof.Machine
end

section
/-! Encoding and decoding (R60-R71). The opcode bytes and the dispatch tables are inverse, the operand bytes and
`takeOperand` are inverse on operands a format accepts, and `decode` joins the two: from an inversion lemma for each of
its answers come the round trips, the totality and the length. -/

namespace Sys2Proof

/-! ### Signed offsets (R7, R63) -/

/-- `sext_8` is the two's complement value of the byte. -/
theorem sext8_eq_toInt (b : Byte) : sext8 b = b.toInt := by
  rw [sext8, BitVec.toInt_eq_toNat_cond]
  split <;> split <;> omega

theorem sext8_mem_range (b : Byte) : -128 ≤ sext8 b ∧ sext8 b ≤ 127 := by
  have := b.isLt
  unfold sext8
  split <;> omega

@[simp] theorem r8Byte_sext8 (b : Byte) : r8Byte (sext8 b) = b := by
  rw [sext8_eq_toInt, r8Byte, BitVec.ofInt_toInt]

theorem sext8_r8Byte {offset : Int} (h : -128 ≤ offset ∧ offset ≤ 127) : sext8 (r8Byte offset) = offset := by
  rw [sext8_eq_toInt, r8Byte, BitVec.toInt_ofInt]
  exact Int.bmod_eq_of_le (by omega) (by omega)

/-! ### Operands (R61-R64) -/

/-- The bytes of a well-formed operand are taken back as that operand, whatever follows them. -/
theorem takeOperand_operandBytes {format : Format} {operand : Operand} (hkind : format.accepts operand = true)
    (hrange : operand.inRange = true) (rest : List Byte) :
    takeOperand format (operandBytes operand ++ rest) = some (operand, rest) := by
  cases format <;> cases operand <;> simp only [Format.accepts, Bool.false_eq_true] at hkind
  case op.none => rfl
  case cb.none => rfl
  case opU8.u8 n =>
    have hn : n < 256 := of_decide_eq_true hrange
    simp [takeOperand, operandBytes, Nat.mod_eq_of_lt hn]
  case opR8.r8 offset =>
    have ho : -128 ≤ offset ∧ offset ≤ 127 := of_decide_eq_true hrange
    simp [takeOperand, operandBytes, sext8_r8Byte ho]
  case opU16.u16 v =>
    have hv : v < 65536 := of_decide_eq_true hrange
    simp [takeOperand, operandBytes, Nat.mod_eq_of_lt hv]

/-- What is taken as an operand is well-formed, and its bytes stand in front of what is left. -/
theorem takeOperand_eq_some {format : Format} {bs rest : List Byte} {operand : Operand}
    (h : takeOperand format bs = some (operand, rest)) :
    format.accepts operand = true ∧ operand.inRange = true ∧ bs = operandBytes operand ++ rest := by
  revert h
  fun_cases takeOperand format bs <;> rintro ⟨⟩
  case case1 => exact ⟨rfl, rfl, rfl⟩
  case case2 => exact ⟨rfl, rfl, rfl⟩
  case case3 n => exact ⟨rfl, decide_eq_true n.isLt, by simp [operandBytes]⟩
  case case5 off => exact ⟨rfl, decide_eq_true (sext8_mem_range off), by simp [operandBytes]⟩
  case case7 lo hi => exact ⟨rfl, decide_eq_true (wordOfBytes lo hi).isLt, by simp [operandBytes]⟩

/-- Two bytes are enough for every operand. -/
theorem takeOperand_isSome (format : Format) {bs : List Byte} (h : 2 ≤ bs.length) :
    ∃ operand rest, takeOperand format bs = some (operand, rest) := by
  obtain ⟨lo, hi, rest, rfl⟩ : ∃ lo hi rest, bs = lo :: hi :: rest := by
    match bs, h with
    | lo :: hi :: rest, _ => exact ⟨lo, hi, rest, rfl⟩
  cases format <;> exact ⟨_, _, rfl⟩

/-! ### Opcodes (R65, R66) -/

/-- The opcode bytes of every instruction select it, and leave room for its operand. -/
theorem opcodeBytes_statement (i : Instr) : Laws.OpcodeBytes.Statement i := by
  cases i
  case rlcA => exact Laws.OpcodeBytes.rlcA
  case decB => exact Laws.OpcodeBytes.decB
  case ldBU8 => exact Laws.OpcodeBytes.ldBU8
  case incC => exact Laws.OpcodeBytes.incC
  case ldCU8 => exact Laws.OpcodeBytes.ldCU8
  case ldDeU16 => exact Laws.OpcodeBytes.ldDeU16
  case rla => exact Laws.OpcodeBytes.rla
  case ldADe => exact Laws.OpcodeBytes.ldADe
  case jrNzR8 => exact Laws.OpcodeBytes.jrNzR8
  case ldHlU16 => exact Laws.OpcodeBytes.ldHlU16
  case ldSpU16 => exact Laws.OpcodeBytes.ldSpU16
  case ldHldA => exact Laws.OpcodeBytes.ldHldA
  case ldAU8 => exact Laws.OpcodeBytes.ldAU8
  case ldCA => exact Laws.OpcodeBytes.ldCA
  case ldHlA => exact Laws.OpcodeBytes.ldHlA
  case xorA => exact Laws.OpcodeBytes.xorA
  case popBc => exact Laws.OpcodeBytes.popBc
  case pushBc => exact Laws.OpcodeBytes.pushBc
  case callZA16 => exact Laws.OpcodeBytes.callZA16
  case callA16 => exact Laws.OpcodeBytes.callA16
  case ldhU8A => exact Laws.OpcodeBytes.ldhU8A
  case ldhCA => exact Laws.OpcodeBytes.ldhCA
  case rlC => exact Laws.OpcodeBytes.rlC
  case bit7H => exact Laws.OpcodeBytes.bit7H

/-- The rule of a primary byte has that byte as its opcode, and none of the formats behind the prefix. -/
theorem opcodeBytes_of_decodePrimary {b : Byte} {i : Instr} (h : decodePrimary b = some i) :
    opcodeBytes i = [b] ∧ i.format ≠ .cb := by
  have hrows : ∀ row ∈ primaryTable, opcodeBytes row.2 = [row.1] ∧ row.2.format ≠ .cb := by decide
  exact hrows (b, i) (lookupOpcode_mem h)

/-- The rule of an extended byte has the prefix and that byte as its opcode, and no operand. -/
theorem opcodeBytes_of_decodeCb {x : Byte} {i : Instr} (h : decodeCb x = some i) :
    opcodeBytes i = [cbPrefix, x] ∧ i.format = .cb := by
  have hrows : ∀ row ∈ cbTable, opcodeBytes row.2 = [cbPrefix, row.1] ∧ row.2.format = .cb := by decide
  exact hrows (x, i) (lookupOpcode_mem h)

theorem ne_prefix_of_decodePrimary {b : Byte} {i : Instr} (h : decodePrimary b = some i) : b ≠ cbPrefix := by
  rintro rfl
  cases decodePrimary_prefix.symm.trans h

/-! ### The decoder's answers (R71, R82, R83) -/

theorem decode_of_decodePrimary {b : Byte} {i : Instr} (h : decodePrimary b = some i) (bs : List Byte) :
    decode (b :: bs) = decodeOperand i bs := by
  simp only [decode, ne_prefix_of_decodePrimary h, if_false, h]

theorem decode_of_decodePrimary_none {b : Byte} (hne : b ≠ cbPrefix) (h : decodePrimary b = none) (bs : List Byte) :
    decode (b :: bs) = .unimplemented .primary b bs := by
  simp only [decode, hne, if_false, h]

theorem decode_of_decodeCb {x : Byte} {i : Instr} (h : decodeCb x = some i) (bs : List Byte) :
    decode (cbPrefix :: x :: bs) = .insn ⟨i, .none⟩ bs := by
  simp only [decode, if_true, h, decodeOperand, (opcodeBytes_of_decodeCb h).2, takeOperand]

theorem decode_of_decodeCb_none {x : Byte} (h : decodeCb x = none) (bs : List Byte) :
    decode (cbPrefix :: x :: bs) = .unimplemented .cb x bs := by
  simp only [decode, if_true, h]

theorem decodeOperand_eq_insn {i : Instr} {bs rest : List Byte} {a : AsmInstr} :
    decodeOperand i bs = .insn a rest ↔ a.instr = i ∧ takeOperand i.format bs = some (a.operand, rest) := by
  obtain ⟨j, operand⟩ := a
  unfold decodeOperand
  split <;> simp [*, eq_comm, and_assoc]

/-- A rule with its operand never decodes to an unimplemented byte. -/
theorem decodeOperand_ne_unimplemented {i : Instr} {bs rest : List Byte} {table : OpTable} {x : Byte} :
    decodeOperand i bs ≠ .unimplemented table x rest := by
  unfold decodeOperand
  split <;> simp

/-- Everything that a list of bytes can be: too short, or led by one of the four kinds of opcode. -/
theorem decode_cases (bytes : List Byte) :
    (bytes = [] ∨ bytes = [cbPrefix]) ∨
    (∃ b bs i, bytes = b :: bs ∧ decodePrimary b = some i) ∨
    (∃ b bs, bytes = b :: bs ∧ b ≠ cbPrefix ∧ decodePrimary b = none) ∨
    (∃ x bs i, bytes = cbPrefix :: x :: bs ∧ decodeCb x = some i) ∨
    (∃ x bs, bytes = cbPrefix :: x :: bs ∧ decodeCb x = none) := by
  rcases bytes with _ | ⟨b, bs⟩
  · exact .inl (.inl rfl)
  by_cases hb : b = cbPrefix
  · subst hb
    rcases bs with _ | ⟨x, bs⟩
    · exact .inl (.inr rfl)
    cases h : decodeCb x with
    | none => exact .inr (.inr (.inr (.inr ⟨x, bs, rfl, h⟩)))
    | some i => exact .inr (.inr (.inr (.inl ⟨x, bs, i, rfl, h⟩)))
  · cases h : decodePrimary b with
    | none => exact .inr (.inr (.inl ⟨b, bs, rfl, hb, h⟩))
    | some i => exact .inr (.inl ⟨b, bs, i, rfl, h⟩)

/-- Where the decoder finds a rule, the bytes are those of an opcode and of its operand. -/
theorem decode_eq_insn {bytes rest : List Byte} {a : AsmInstr} (h : decode bytes = .insn a rest) :
    (∃ b bs, bytes = b :: bs ∧ decodePrimary b = some a.instr ∧
      takeOperand a.instr.format bs = some (a.operand, rest)) ∨
    (∃ x, bytes = cbPrefix :: x :: rest ∧ decodeCb x = some a.instr ∧ a.operand = .none) := by
  obtain (rfl | rfl) | ⟨b, bs, i, rfl, hi⟩ | ⟨b, bs, rfl, hb, hn⟩ | ⟨x, bs, i, rfl, hi⟩ | ⟨x, bs, rfl, hn⟩ :=
    decode_cases bytes
  · cases h
  · cases h
  · rw [decode_of_decodePrimary hi] at h
    obtain ⟨rfl, htake⟩ := decodeOperand_eq_insn.mp h
    exact .inl ⟨b, bs, rfl, hi, htake⟩
  · rw [decode_of_decodePrimary_none hb hn] at h
    cases h
  · rw [decode_of_decodeCb hi] at h
    cases h
    exact .inr ⟨x, rfl, hi, rfl⟩
  · rw [decode_of_decodeCb_none hn] at h
    cases h

/-- Where the decoder finds no rule, the bytes it has read are the unimplemented byte, behind the prefix for the
extended table. -/
theorem decode_eq_unimplemented {bytes rest : List Byte} {table : OpTable} {x : Byte}
    (h : decode bytes = .unimplemented table x rest) :
    (table = .primary ∧ bytes = x :: rest ∧ x ≠ cbPrefix ∧ decodePrimary x = none) ∨
    (table = .cb ∧ bytes = cbPrefix :: x :: rest ∧ decodeCb x = none) := by
  obtain (rfl | rfl) | ⟨b, bs, i, rfl, hi⟩ | ⟨b, bs, rfl, hb, hn⟩ | ⟨y, bs, i, rfl, hi⟩ | ⟨y, bs, rfl, hn⟩ :=
    decode_cases bytes
  · cases h
  · cases h
  · rw [decode_of_decodePrimary hi] at h
    exact absurd h decodeOperand_ne_unimplemented
  · rw [decode_of_decodePrimary_none hb hn] at h
    cases h
    exact .inl ⟨rfl, rfl, hb, hn⟩
  · rw [decode_of_decodeCb hi] at h
    cases h
  · rw [decode_of_decodeCb_none hn] at h
    cases h
    exact .inr ⟨rfl, rfl, hn⟩

/-! ### The statements -/

/-- Settles O1: the opcode bytes select the rule in their table, and the operand bytes give the operand back. -/
theorem decodeEncodeRoundTrip : Obligations.DecodeEncodeRoundTrip := by
  intro ⟨i, operand⟩ rest hwf
  obtain ⟨hkind, hrange⟩ : i.format.accepts operand = true ∧ operand.inRange = true := by
    simpa [AsmInstr.wellFormed] using hwf
  have htake := takeOperand_operandBytes hkind hrange rest
  rcases (opcodeBytes_statement i).1 with ⟨b, hbytes, -, hrule, -⟩ | ⟨x, hbytes, hrule, hformat⟩
  · simp only [encode, hbytes, List.cons_append, List.nil_append]
    rw [decode_of_decodePrimary hrule]
    exact decodeOperand_eq_insn.mpr ⟨rfl, htake⟩
  · rw [hformat] at htake
    obtain ⟨hnone, hrest⟩ : Operand.none = operand ∧ operandBytes operand ++ rest = rest := by
      simpa [takeOperand] using htake
    simp only [encode, hbytes, List.cons_append, List.nil_append, hrest]
    rw [decode_of_decodeCb hrule, hnone]

/-- Settles O2: the rule's opcode bytes and the operand's bytes are what `decode_eq_insn` finds in the list. -/
theorem encodeDecodeRoundTrip : Obligations.EncodeDecodeRoundTrip := by
  intro bytes ⟨i, operand⟩ rest h
  rcases decode_eq_insn h with ⟨b, bs, rfl, hrule, htake⟩ | ⟨x, rfl, hrule, rfl⟩
  · obtain ⟨hkind, hrange, rfl⟩ := takeOperand_eq_some htake
    simp only at hkind hrange hrule
    simp [AsmInstr.wellFormed, encode, hkind, hrange, (opcodeBytes_of_decodePrimary hrule).1]
  · obtain ⟨hbytes, hformat⟩ := opcodeBytes_of_decodeCb hrule
    simp only at hbytes hformat
    simp [AsmInstr.wellFormed, encode, Format.accepts, Operand.inRange, operandBytes, hbytes, hformat]

/-- The encoding of a well-formed instruction has the instruction's length (R61). -/
theorem encode_length {a : AsmInstr} (h : a.wellFormed = true) : (encode a).length = a.instr.length := by
  have hkind : a.instr.format.accepts a.operand = true := (Bool.and_eq_true_iff.mp h).1
  simpa [encode] using (opcodeBytes_statement a.instr).2 a.operand hkind

/-- An instruction has one to three bytes (R61). -/
theorem instr_length_range (i : Instr) : 1 ≤ i.length ∧ i.length ≤ 3 := by
  unfold Instr.length
  cases i.format <;> decide

/-- Settles O3: the two bytes behind a primary opcode are enough for its operand. -/
theorem decoderIsTotal : Obligations.DecoderIsTotal := by
  intro bytes hlen
  have hinsn : ∀ a rest, decode bytes = .insn a rest →
      ∃ a rest, decode bytes = .insn a rest ∧ bytes = encode a ++ rest ∧ (encode a).length ≤ 3 := by
    intro a rest h
    obtain ⟨hwf, hbytes⟩ := encodeDecodeRoundTrip bytes a rest h
    exact ⟨a, rest, h, hbytes, encode_length hwf ▸ (instr_length_range a.instr).2⟩
  obtain (rfl | rfl) | ⟨b, bs, i, rfl, hi⟩ | ⟨b, bs, rfl, hb, hn⟩ | ⟨x, bs, i, rfl, hi⟩ | ⟨x, bs, rfl, hn⟩ :=
    decode_cases bytes
  · simp at hlen
  · simp at hlen
  · obtain ⟨operand, rest, htake⟩ := takeOperand_isSome i.format (bs := bs) (by simpa using hlen)
    have h : decode (b :: bs) = .insn ⟨i, operand⟩ rest :=
      (decode_of_decodePrimary hi bs).trans (decodeOperand_eq_insn.mpr ⟨rfl, htake⟩)
    exact .inl (hinsn _ _ h)
  · exact .inr (.inl ⟨b, bs, decode_of_decodePrimary_none hb hn bs, rfl, hb, hn⟩)
  · exact .inl (hinsn _ _ (decode_of_decodeCb hi bs))
  · exact .inr (.inr ⟨x, bs, decode_of_decodeCb_none hn bs, rfl, hn⟩)

@[simp] theorem lengthFromFirst_prefix : lengthFromFirst cbPrefix = 2 := if_pos rfl

theorem lengthFromFirst_of_decodePrimary {b : Byte} {i : Instr} (h : decodePrimary b = some i) :
    lengthFromFirst b = i.length := by
  simp [lengthFromFirst, ne_prefix_of_decodePrimary h, h]

theorem lengthFromFirst_of_decodePrimary_none {b : Byte} (hne : b ≠ cbPrefix) (h : decodePrimary b = none) :
    lengthFromFirst b = 1 := by
  simp [lengthFromFirst, hne, h]

/-- Byte 0 of an encoding gives its length (R68). -/
theorem lengthFromFirst_of_decode {b : Byte} {bs rest : List Byte} {a : AsmInstr}
    (h : decode (b :: bs) = .insn a rest) : lengthFromFirst b = a.instr.length := by
  rcases decode_eq_insn h with ⟨b', bs', hbytes, hrule, -⟩ | ⟨x, hbytes, hrule, -⟩
  · cases hbytes
    exact lengthFromFirst_of_decodePrimary hrule
  · cases hbytes
    rw [lengthFromFirst_prefix, Instr.length, (opcodeBytes_of_decodeCb hrule).2, Format.length]

/-- Settles O6: the length of an encoding, or of the bytes in front of what an unimplemented byte leaves. -/
theorem lengthFoundFromFirstByte : Obligations.LengthFoundFromFirstByte := by
  intro b bytes
  refine ⟨fun a rest h => ?insn, fun table x rest h => ?unimplemented⟩
  case insn =>
    obtain ⟨hwf, hbytes⟩ := encodeDecodeRoundTrip _ a rest h
    have hlen := congrArg List.length hbytes
    rw [List.length_append, encode_length hwf, List.length_cons] at hlen
    rw [lengthFromFirst_of_decode h]
    omega
  case unimplemented =>
    rcases decode_eq_unimplemented h with ⟨-, hbytes, hne, hnone⟩ | ⟨-, hbytes, -⟩
    · cases hbytes
      rw [lengthFromFirst_of_decodePrimary_none hne hnone]
    · cases hbytes
      simp

/-- Settles O4: the decoder, run on each word. -/
theorem specWordsDecode : Obligations.SpecWordsDecode := by
  unfold Obligations.SpecWordsDecode
  decide

/-- Settles O5: both tables, looked up at each of the 256 bytes by the kernel. -/
theorem undefinedByteCounts : Obligations.UndefinedByteCounts := by
  unfold Obligations.UndefinedByteCounts
  constructor
  · decide +kernel
  · decide +kernel

end Sys2Proof
end

section
/-! What an instruction does (R80-R143), said once. `effect` is the whole next state where no address is out of range,
and `exec_cases` says that every instruction ends in it, or in one of the two faults of R47; `readAddrs` and the model's
`storedCells` are its accesses to the bus. The statements about steps, frames and the bus rest on these. -/

namespace Sys2Proof.Machine

/-- The addresses an instruction reads, in order, from the state its meaning runs on (R84, R96, R131, R142). -/
def readAddrs (i : Instr) (s : State) : List Nat :=
  match i with
  | .ldBU8 | .ldCU8 | .ldAU8 | .jrNzR8 | .ldhU8A => [s.pc.toNat]
  | .ldDeU16 | .ldHlU16 => [s.pc.toNat, (s.pc + 1).toNat]
  | .ldSpU16 | .callA16 => [s.pc.toNat, s.pc.toNat + 1]
  | .callZA16 => if flagZ s.f then [s.pc.toNat, s.pc.toNat + 1] else []
  | .ldADe => [s.de.toNat]
  | .popBc => [s.sp.toNat, (s.sp + 1).toNat]
  | .rlcA | .decB | .incC | .rla | .ldHldA | .ldCA | .ldHlA | .xorA | .pushBc | .ldhCA | .rlC | .bit7H => []

/-- The state after an instruction that presents no address out of range. -/
def effect (i : Instr) (s : State) : State :=
  match i with
  | .rlcA => { s with a := shiftLeftIn (carryOutLeft s.a) s.a, f := flagsAfterRotateA (carryOutLeft s.a) s.f }
  | .decB => { s with b := s.b - 1, f := flagsAfterDec (s.b - 1) s.f }
  | .ldBU8 => { s with b := s.bus.answer s.pc.toNat, pc := s.pc + 1, bus := s.bus.afterRead s.pc.toNat }
  | .incC => { s with c := s.c + 1 }
  | .ldCU8 => { s with c := s.bus.answer s.pc.toNat, pc := s.pc + 1, bus := s.bus.afterRead s.pc.toNat }
  | .ldDeU16 =>
    { s with
      e := s.bus.answer s.pc.toNat
      d := (s.bus.afterRead s.pc.toNat).answer (s.pc + 1).toNat
      pc := s.pc + 2
      bus := (s.bus.afterRead s.pc.toNat).afterRead (s.pc + 1).toNat }
  | .rla => { s with a := shiftLeftIn (flagC s.f) s.a, f := flagsAfterRotateA (carryOutLeft s.a) s.f }
  | .ldADe => { s with a := s.bus.answer s.de.toNat, bus := s.bus.afterRead s.de.toNat }
  | .jrNzR8 =>
    { s with
      pc := if flagZ s.f then s.pc + 1 else relativeTarget (s.pc + 1) (s.bus.answer s.pc.toNat)
      bus := s.bus.afterRead s.pc.toNat }
  | .ldHlU16 =>
    { s with
      l := s.bus.answer s.pc.toNat
      h := (s.bus.afterRead s.pc.toNat).answer (s.pc + 1).toNat
      pc := s.pc + 2
      bus := (s.bus.afterRead s.pc.toNat).afterRead (s.pc + 1).toNat }
  | .ldSpU16 => { s with sp := callTarget s, pc := s.pc + 2, bus := afterOperandRead s }
  | .ldHldA => { s with h := hiByte (s.hl - 1), l := loByte (s.hl - 1), bus := s.bus.afterWrite s.hl.toNat s.a }
  | .ldAU8 => { s with a := s.bus.answer s.pc.toNat, pc := s.pc + 1, bus := s.bus.afterRead s.pc.toNat }
  | .ldCA => { s with c := s.a }
  | .ldHlA => { s with bus := s.bus.afterWrite s.hl.toNat s.a }
  | .xorA => { s with a := s.a ^^^ s.a, f := flagsAfterXor s.f }
  | .popBc =>
    { s with
      c := s.bus.answer s.sp.toNat
      b := (s.bus.afterRead s.sp.toNat).answer (s.sp + 1).toNat
      sp := s.sp + 2
      bus := (s.bus.afterRead s.sp.toNat).afterRead (s.sp + 1).toNat }
  | .pushBc =>
    { s with
      sp := s.sp - 2
      bus := (s.bus.afterWrite (s.sp - 1).toNat s.b).afterWrite (s.sp - 2).toNat s.c }
  | .callZA16 => if flagZ s.f then afterCall s else { s with pc := s.pc + 2 }
  | .callA16 => afterCall s
  | .ldhU8A =>
    { s with
      pc := s.pc + 1
      bus := (s.bus.afterRead s.pc.toNat).afterWrite (highPage (s.bus.answer s.pc.toNat)) s.a }
  | .ldhCA => { s with bus := s.bus.afterWrite (highPage s.c) s.a }
  | .rlC =>
    { s with
      c := shiftLeftIn (flagC s.f) s.c
      f := flagsAfterRlC (carryOutLeft s.c) (shiftLeftIn (flagC s.f) s.c) }
  | .bit7H => { s with f := flagsAfterBit (s.h.getLsbD 7) s.f }

/-! ### The instructions that can fault, and the branch -/

/-- The offset byte is read whether the branch is taken or not (R141). -/
theorem exec_jrNzR8 (s : State) :
    exec .jrNzR8 s =
      .next { s with
        pc := if flagZ s.f then s.pc + 1 else relativeTarget (s.pc + 1) (s.bus.answer s.pc.toNat)
        bus := s.bus.afterRead s.pc.toNat } := by
  rw [exec, execJrNzR8, fetchByte_eq]
  cases flagZ s.f <;> simp

theorem exec_ldSpU16_of_ne {s : State} (h : s.pc ≠ 0xFFFF#16) :
    exec .ldSpU16 s = .next { s with sp := callTarget s, pc := s.pc + 2, bus := afterOperandRead s } := by
  rw [exec, execLdSpU16, memReadWord_of_ne h]
  rfl

theorem exec_ldSpU16_of_top {s : State} (h : s.pc = 0xFFFF#16) :
    exec .ldSpU16 s = .fault (.busFault 0x10000 (s.bus.afterRead 0xFFFF)) := by
  rw [exec, execLdSpU16, h, memReadWord_top]

/-- CALL a16, and CALL Z,a16 with Z set, are the one call (R142, R143). -/
theorem exec_of_callTaken {i : Instr} {s : State} (h : callTaken i s) : exec i s = call s := by
  rcases h with rfl | ⟨rfl, hz⟩
  · rfl
  · rw [exec, execCallZA16, if_pos hz]

theorem exec_callZA16_of_clear {s : State} (h : flagZ s.f = false) :
    exec .callZA16 s = .next { s with pc := s.pc + 2 } := by
  simp [exec, execCallZA16, h]

theorem effect_of_callTaken {i : Instr} {s : State} (h : callTaken i s) : effect i s = afterCall s := by
  rcases h with rfl | ⟨rfl, hz⟩
  · rfl
  · rw [effect, if_pos hz]

/-! ### Every instruction -/

/-- The fault of a word read at 0xFFFF: its low byte has been read (R43, R47). -/
def operandFault (s : State) : Fault := .busFault 0x10000 (s.bus.afterRead 0xFFFF)

/-- The fault of a call's push with SP = 0x0001: the operand has been read and the low byte written (R140). -/
def pushFault (s : State) : Fault :=
  .busFault 0x10000 ((afterOperandRead s).afterWrite 0xFFFF (loByte (s.pc + 2)))

/-- An instruction that presents no address out of range completes. -/
theorem exec_of_inRange {i : Instr} {s : State} (h : ¬ presentsOutOfRange i s) : exec i s = .next (effect i s) := by
  by_cases hcall : callTaken i s
  · rw [exec_of_callTaken hcall, effect_of_callTaken hcall]
    exact call_of_ne (fun hpc => h (.inl ⟨.inr hcall, hpc⟩)) (fun hsp => h (.inr ⟨hcall, hsp⟩))
  cases i
  case callA16 => exact absurd (.inl rfl) hcall
  case callZA16 =>
    have hz : flagZ s.f = false := Bool.not_eq_true _ ▸ fun hz => hcall (.inr ⟨rfl, hz⟩)
    rw [exec_callZA16_of_clear hz, effect, hz]
    rfl
  case ldSpU16 => exact exec_ldSpU16_of_ne fun hpc => h (.inl ⟨.inl rfl, hpc⟩)
  case jrNzR8 => exact exec_jrNzR8 s
  case ldBU8 => exact exec_ldBU8 s
  case ldCU8 => exact exec_ldCU8 s
  case ldAU8 => exact exec_ldAU8 s
  case ldDeU16 => exact exec_ldDeU16 s
  case ldHlU16 => exact exec_ldHlU16 s
  case ldADe => exact exec_ldADe s
  case ldHldA => exact exec_ldHldA s
  case ldHlA => exact exec_ldHlA s
  case ldhU8A => exact exec_ldhU8A s
  case ldhCA => exact exec_ldhCA s
  case pushBc => exact exec_pushBc s
  case popBc => exact exec_popBc s
  all_goals rfl

/-- With the word operand at 0xFFFF its second read faults, and nothing has been pushed (R47, R153). -/
theorem exec_of_operand_top {i : Instr} {s : State} (hword : i = .ldSpU16 ∨ callTaken i s) (hpc : s.pc = 0xFFFF#16) :
    exec i s = .fault (operandFault s) := by
  rcases hword with rfl | hcall
  · exact exec_ldSpU16_of_top hpc
  · exact (exec_of_callTaken hcall).trans (call_of_top hpc)

/-- With SP = 0x0001 the second write of a call's push faults, and the low byte has been written (R47, R140). -/
theorem exec_of_push_one {i : Instr} {s : State} (hcall : callTaken i s) (hpc : s.pc ≠ 0xFFFF#16)
    (hsp : s.sp = 0x0001#16) : exec i s = .fault (pushFault s) :=
  (exec_of_callTaken hcall).trans (call_of_one hpc hsp)

/-- Everything an instruction can do: it completes, or its operand read faults, or its push does. -/
theorem exec_cases (i : Instr) (s : State) :
    (¬ presentsOutOfRange i s ∧ exec i s = .next (effect i s)) ∨
    ((i = .ldSpU16 ∨ callTaken i s) ∧ s.pc = 0xFFFF#16 ∧ exec i s = .fault (operandFault s)) ∨
    (callTaken i s ∧ s.pc ≠ 0xFFFF#16 ∧ s.sp = 0x0001#16 ∧ exec i s = .fault (pushFault s)) := by
  by_cases hrange : presentsOutOfRange i s
  · by_cases hpc : s.pc = 0xFFFF#16
    · have hword : i = .ldSpU16 ∨ callTaken i s := hrange.elim And.left (.inr ·.1)
      exact .inr (.inl ⟨hword, hpc, exec_of_operand_top hword hpc⟩)
    · obtain ⟨hcall, hsp⟩ : callTaken i s ∧ s.sp = 0x0001#16 := hrange.resolve_left fun h => hpc h.2
      exact .inr (.inr ⟨hcall, hpc, hsp, exec_of_push_one hcall hpc hsp⟩)
  · exact .inl ⟨hrange, exec_of_inRange hrange⟩

/-- Everything an instruction that goes on can have done. -/
theorem exec_next {i : Instr} {s t : State} :
    exec i s = .next t ↔ ¬ presentsOutOfRange i s ∧ t = effect i s := by
  rcases exec_cases i s with ⟨hrange, h⟩ | ⟨hword, hpc, h⟩ | ⟨hcall, -, hsp, h⟩
  · simp [h, hrange, eq_comm]
  · simp [h, show presentsOutOfRange i s from .inl ⟨hword, hpc⟩]
  · simp [h, show presentsOutOfRange i s from .inr ⟨hcall, hsp⟩]

/-- Everything an instruction that faults can have done. -/
theorem exec_fault {i : Instr} {s : State} {r : Fault} (h : exec i s = .fault r) :
    ((i = .ldSpU16 ∨ callTaken i s) ∧ s.pc = 0xFFFF#16 ∧ r = operandFault s) ∨
    (callTaken i s ∧ s.pc ≠ 0xFFFF#16 ∧ s.sp = 0x0001#16 ∧ r = pushFault s) := by
  rcases exec_cases i s with ⟨-, he⟩ | ⟨hword, hpc, he⟩ | ⟨hcall, hpc, hsp, he⟩
  · cases he.symm.trans h
  · cases he.symm.trans h
    exact .inl ⟨hword, hpc, rfl⟩
  · cases he.symm.trans h
    exact .inr ⟨hcall, hpc, hsp, rfl⟩

theorem exec_ne_refused (i : Instr) (s : State) (r : Refusal) : exec i s ≠ .refused r := by
  rcases exec_cases i s with ⟨-, h⟩ | ⟨-, -, h⟩ | ⟨-, -, -, h⟩ <;> simp [h]

/-- The fault condition of the model's tables is exact (R47). -/
theorem exec_fault_iff {i : Instr} {s : State} : (∃ r, exec i s = .fault r) ↔ presentsOutOfRange i s := by
  constructor
  · rintro ⟨r, h⟩
    rcases exec_fault h with ⟨hword, hpc, -⟩ | ⟨hcall, -, hsp, -⟩
    · exact .inl ⟨hword, hpc⟩
    · exact .inr ⟨hcall, hsp⟩
  · intro hrange
    rcases exec_cases i s with ⟨hnot, -⟩ | ⟨-, -, h⟩ | ⟨-, -, -, h⟩
    · exact absurd hrange hnot
    · exact ⟨_, h⟩
    · exact ⟨_, h⟩

end Sys2Proof.Machine
end

section
/-! The bus over a sequence of accesses: what reads and then writes keep of RAM, of the wiring, of the history, of the
order of the bus and of RAM's consistency with the history (R40, R47-R54). One induction over the sequence each. -/

namespace Sys2Proof.Machine

/-- The bus after reads of these addresses, in order. -/
def Bus.afterReads (bus : Bus) : List Nat → Bus
  | [] => bus
  | addr :: addrs => (bus.afterRead addr).afterReads addrs

/-- The bus after writes of these cells, in order. -/
def Bus.afterWrites (bus : Bus) : List Host.Cell → Bus
  | [] => bus
  | (addr, v) :: cells => (bus.afterWrite addr v).afterWrites cells

@[simp] theorem Bus.afterReads_nil (bus : Bus) : bus.afterReads [] = bus := rfl
@[simp] theorem Bus.afterReads_cons (bus : Bus) (addr : Nat) (addrs : List Nat) :
    bus.afterReads (addr :: addrs) = (bus.afterRead addr).afterReads addrs := rfl
@[simp] theorem Bus.afterWrites_nil (bus : Bus) : bus.afterWrites [] = bus := rfl
@[simp] theorem Bus.afterWrites_cons (bus : Bus) (addr : Nat) (v : Byte) (cells : List Host.Cell) :
    bus.afterWrites ((addr, v) :: cells) = (bus.afterWrite addr v).afterWrites cells := rfl

@[simp] theorem Bus.afterReads_mem (bus : Bus) (addrs : List Nat) : (bus.afterReads addrs).mem = bus.mem := by
  induction addrs generalizing bus with
  | nil => rfl
  | cons addr addrs ih => exact ih _

@[simp] theorem Bus.afterReads_oracleAt (bus : Bus) (addrs : List Nat) :
    (bus.afterReads addrs).oracleAt = bus.oracleAt := by
  induction addrs generalizing bus with
  | nil => rfl
  | cons addr addrs ih => exact ih _

@[simp] theorem Bus.afterWrites_oracleAt (bus : Bus) (cells : List Host.Cell) :
    (bus.afterWrites cells).oracleAt = bus.oracleAt := by
  induction cells generalizing bus with
  | nil => rfl
  | cons cell cells ih => exact ih _

@[simp] theorem Bus.afterReads_isOracle (bus : Bus) (addrs : List Nat) (x : Nat) :
    (bus.afterReads addrs).isOracle x = bus.isOracle x := by simp [Bus.isOracle]

@[simp] theorem Bus.afterWrites_isOracle (bus : Bus) (cells : List Host.Cell) (x : Nat) :
    (bus.afterWrites cells).isOracle x = bus.isOracle x := by simp [Bus.isOracle]

/-- A read of RAM answers the same whatever was read before. -/
theorem Bus.answer_afterRead {bus : Bus} {x : Nat} (h : bus.isOracle x = false) (addr : Nat) :
    (bus.afterRead addr).answer x = bus.answer x := by
  rw [Bus.answer_of_ram h, Bus.answer_of_ram (by simpa using h), Bus.afterRead_mem]

/-! ### The history -/

/-- Reads put reads in the history, one each. -/
theorem Bus.afterReads_history (bus : Bus) (addrs : List Nat) :
    ∃ reads, (bus.afterReads addrs).history = reads ++ bus.history ∧ reads.all isReadAccess = true ∧
      reads.length = addrs.length := by
  induction addrs generalizing bus with
  | nil => exact ⟨[], rfl, rfl, rfl⟩
  | cons addr addrs ih =>
    obtain ⟨reads, hhistory, hall, hlen⟩ := ih (bus.afterRead addr)
    refine ⟨reads ++ [.read addr (bus.answer addr)], ?_, ?_, ?_⟩
    · simp [hhistory]
    · rw [List.all_append, hall]
      rfl
    · simp [hlen]

/-- Writes put writes in the history, one each. -/
theorem Bus.afterWrites_history (bus : Bus) (cells : List Host.Cell) :
    ∃ writes, (bus.afterWrites cells).history = writes ++ bus.history ∧
      writes.all (fun x => !isReadAccess x) = true ∧ writes.length = cells.length := by
  induction cells generalizing bus with
  | nil => exact ⟨[], rfl, rfl, rfl⟩
  | cons cell cells ih =>
    obtain ⟨addr, v⟩ := cell
    obtain ⟨writes, hhistory, hall, hlen⟩ := ih (bus.afterWrite addr v)
    refine ⟨writes ++ [.write addr v], ?_, ?_, ?_⟩
    · simp [hhistory]
    · rw [List.all_append, hall]
      rfl
    · simp [hlen]

/-! ### RAM -/

/-- Writes leave every other address alone. -/
theorem Bus.afterWrites_read_other (bus : Bus) {cells : List Host.Cell} {x : Nat} (h : x ∉ cells.map (·.1)) :
    (bus.afterWrites cells).mem.read x = bus.mem.read x := by
  induction cells generalizing bus with
  | nil => rfl
  | cons cell cells ih =>
    obtain ⟨hne, hrest⟩ : x ≠ cell.1 ∧ x ∉ cells.map (·.1) := by simpa using h
    exact (ih _ hrest).trans (Bus.afterWrite_read_other bus cell.1 x cell.2 hne)

/-- Where no address is written twice, each cell written at an address of RAM is what RAM answers there. -/
theorem Bus.answer_afterWrites {bus : Bus} {cells : List Host.Cell} (hwf : bus.mem.wf = true)
    (hnodup : (cells.map (·.1)).Nodup) {addr : Nat} {v : Byte} (hmem : (addr, v) ∈ cells)
    (hram : bus.isOracle addr = false) : (bus.afterWrites cells).answer addr = v := by
  induction cells generalizing bus with
  | nil => cases hmem
  | cons cell cells ih =>
    obtain ⟨hnotin, hnodup⟩ := List.nodup_cons.mp hnodup
    rcases List.mem_cons.mp hmem with rfl | hmem
    · have hram' : (bus.afterWrite addr v).isOracle addr = false := hram
      rw [Bus.afterWrites_cons, Bus.answer_of_ram (by simpa using hram'), Bus.afterWrites_read_other _ hnotin,
        ← Bus.answer_of_ram hram']
      exact Bus.answer_afterWrite_same v hwf hram
    · exact ih (Bus.afterWrite_wf _ _ hwf) hnodup hmem hram

/-! ### The bus in order -/

theorem Bus.Ok.afterReads {bus : Bus} {addrs : List Nat} (ha : ∀ x ∈ addrs, x < 0x10000) (h : bus.Ok) :
    (bus.afterReads addrs).Ok := by
  induction addrs generalizing bus with
  | nil => exact h
  | cons addr addrs ih =>
    obtain ⟨haddr, hrest⟩ := List.forall_mem_cons.mp ha
    exact ih hrest (h.afterRead haddr)

theorem Bus.Ok.afterWrites {bus : Bus} {cells : List Host.Cell} (hc : ∀ c ∈ cells, c.1 < 0x10000) (h : bus.Ok) :
    (bus.afterWrites cells).Ok := by
  induction cells generalizing bus with
  | nil => exact h
  | cons cell cells ih =>
    obtain ⟨hcell, hrest⟩ := List.forall_mem_cons.mp hc
    exact ih hrest (h.afterWrite cell.2 hcell)

/-! ### RAM and the history (R49, R52) -/

/-- Which reads are of RAM is all that the history's consistency takes from the bus. -/
theorem readsFollowWrites_congr {launch : Memory} {bus bus' : Bus} (h : bus'.oracleAt = bus.oracleAt)
    (history : List BusAccess) :
    readsFollowWrites launch bus' history ↔ readsFollowWrites launch bus history := by
  induction history with
  | nil => rfl
  | cons access older ih =>
    cases access with
    | write addr v => exact ih
    | read addr v => simp only [readsFollowWrites, Bus.isOracle, h, ih]

/-- A read of RAM returns what RAM holds, which the history accounts for already. -/
theorem RamConsistent.afterRead {launch : Memory} {bus : Bus} (h : RamConsistent launch bus) (addr : Nat) :
    RamConsistent launch (bus.afterRead addr) where
  wf := h.wf
  ram := h.ram
  reads := by
    refine ⟨fun hram => ?_, (readsFollowWrites_congr (Bus.afterRead_oracleAt bus addr) _).mpr h.reads⟩
    have hram : bus.isOracle addr = false := hram
    rw [Bus.answer_of_ram hram]
    exact h.ram addr hram

/-- A write to RAM is from then on the latest write to its address. -/
theorem RamConsistent.afterWrite {launch : Memory} {bus : Bus} (h : RamConsistent launch bus) (addr : Nat) (v : Byte) :
    RamConsistent launch (bus.afterWrite addr v) where
  wf := Bus.afterWrite_wf addr v h.wf
  ram := by
    intro x hx
    by_cases hax : addr = x
    · subst hax
      rw [← Bus.answer_of_ram hx, Bus.answer_afterWrite_same v h.wf hx]
      simp [latestWrite]
    · rw [Bus.afterWrite_read_other bus addr x v (Ne.symm hax)]
      simpa [latestWrite, hax] using h.ram x hx
  reads := (readsFollowWrites_congr (Bus.afterWrite_oracleAt bus addr v) bus.history).mpr h.reads

theorem RamConsistent.afterReads {launch : Memory} {bus : Bus} (h : RamConsistent launch bus) (addrs : List Nat) :
    RamConsistent launch (bus.afterReads addrs) := by
  induction addrs generalizing bus with
  | nil => exact h
  | cons addr addrs ih => exact ih (h.afterRead addr)

theorem RamConsistent.afterWrites {launch : Memory} {bus : Bus} (h : RamConsistent launch bus)
    (cells : List Host.Cell) : RamConsistent launch (bus.afterWrites cells) := by
  induction cells generalizing bus with
  | nil => exact h
  | cons cell cells ih => exact ih (h.afterWrite cell.1 cell.2)

/-- Settles O53: with no access made, the launch memory is what RAM holds. -/
theorem launchIsConsistent : Obligations.LaunchIsConsistent := by
  intro bus hwf hhistory
  refine ⟨hwf, fun x _ => ?_, ?_⟩
  · rw [hhistory]
    rfl
  · rw [hhistory]
    trivial

end Sys2Proof.Machine
end

section
/-! What an instruction and a step do to the bus: reads, then writes, each at an address of the space. From this one
fact follow the invariant, RAM's consistency with the history and the order of a step's accesses. -/

namespace Sys2Proof.Machine

/-- From one bus to another by reads and then writes in the address space, at most `n` together. -/
def Bus.Accessed (n : Nat) (bus bus' : Bus) : Prop :=
  ∃ addrs cells, bus' = (bus.afterReads addrs).afterWrites cells ∧ (∀ x ∈ addrs, x < 0x10000) ∧
    (∀ c ∈ cells, c.1 < 0x10000) ∧ addrs.length + cells.length ≤ n

theorem Bus.Accessed.ok {n : Nat} {bus bus' : Bus} (h : Bus.Accessed n bus bus') (hok : bus.Ok) : bus'.Ok := by
  obtain ⟨addrs, cells, rfl, haddrs, hcells, -⟩ := h
  exact (hok.afterReads haddrs).afterWrites hcells

theorem Bus.Accessed.ramConsistent {n : Nat} {launch : Memory} {bus bus' : Bus} (h : Bus.Accessed n bus bus')
    (hram : RamConsistent launch bus) : RamConsistent launch bus' := by
  obtain ⟨addrs, cells, rfl, -, -, -⟩ := h
  exact (hram.afterReads addrs).afterWrites cells

theorem Bus.Accessed.oracleAt {n : Nat} {bus bus' : Bus} (h : Bus.Accessed n bus bus') :
    bus'.oracleAt = bus.oracleAt := by
  obtain ⟨addrs, cells, rfl, -, -, -⟩ := h
  simp

theorem Bus.Accessed.history {n : Nat} {bus bus' : Bus} (h : Bus.Accessed n bus bus') :
    ∃ writes reads : List BusAccess, bus'.history = writes ++ reads ++ bus.history ∧
      writes.all (fun x => !isReadAccess x) = true ∧ reads.all isReadAccess = true ∧
      writes.length + reads.length ≤ n := by
  obtain ⟨addrs, cells, rfl, -, -, hlen⟩ := h
  obtain ⟨reads, hreads, hallReads, hlenReads⟩ := bus.afterReads_history addrs
  obtain ⟨writes, hwrites, hallWrites, hlenWrites⟩ := (bus.afterReads addrs).afterWrites_history cells
  exact ⟨writes, reads, by rw [hwrites, hreads, List.append_assoc], hallWrites, hallReads, by omega⟩

/-! ### The accesses of an instruction -/

/-- An instruction that completes has read the addresses of `readAddrs` and then stored the cells of `storedCells`. -/
theorem effect_bus (i : Instr) (s : State) :
    (effect i s).bus = (s.bus.afterReads (readAddrs i s)).afterWrites (storedCells i s) := by
  cases i
  case callZA16 =>
    cases hz : flagZ s.f <;> simp [effect, readAddrs, storedCells, hz, afterCall, afterOperandRead, callCells]
  case pushBc =>
    rw [storedCells, word_pred_pred]
    rfl
  all_goals rfl

/-- Where a call reads its operand, the addresses are in range. -/
theorem operandAddrs_lt {s : State} (hpc : s.pc ≠ 0xFFFF#16) : ∀ x ∈ [s.pc.toNat, s.pc.toNat + 1], x < 0x10000 :=
  List.forall_mem_cons.mpr ⟨s.pc.isLt, List.forall_mem_singleton.mpr (word_succ_lt_space.mpr hpc)⟩

/-- Where a call pushes, the addresses are in range. -/
theorem callCells_lt {s : State} (hsp : s.sp ≠ 0x0001#16) : ∀ c ∈ callCells s, c.1 < 0x10000 := by
  have hsucc := word_succ_lt_space.mpr (show s.sp - 2 ≠ 0xFFFF#16 by bv_omega)
  exact List.forall_mem_cons.mpr ⟨(s.sp - 2).isLt, List.forall_mem_singleton.mpr hsucc⟩

theorem readAddrs_lt {i : Instr} {s : State} (h : ¬ presentsOutOfRange i s) : ∀ x ∈ readAddrs i s, x < 0x10000 := by
  cases i
  case ldBU8 | ldCU8 | ldAU8 | jrNzR8 | ldhU8A => exact List.forall_mem_singleton.mpr s.pc.isLt
  case ldDeU16 | ldHlU16 =>
    exact List.forall_mem_cons.mpr ⟨s.pc.isLt, List.forall_mem_singleton.mpr (s.pc + 1).isLt⟩
  case ldSpU16 => exact operandAddrs_lt fun hpc => h (.inl ⟨.inl rfl, hpc⟩)
  case callA16 => exact operandAddrs_lt fun hpc => h (.inl ⟨.inr (.inl rfl), hpc⟩)
  case callZA16 =>
    rw [readAddrs]
    split
    · next hz => exact operandAddrs_lt fun hpc => h (.inl ⟨.inr (.inr ⟨rfl, hz⟩), hpc⟩)
    · exact List.forall_mem_nil _
  case ldADe => exact List.forall_mem_singleton.mpr s.de.isLt
  case popBc => exact List.forall_mem_cons.mpr ⟨s.sp.isLt, List.forall_mem_singleton.mpr (s.sp + 1).isLt⟩
  all_goals exact List.forall_mem_nil _

theorem storedCells_lt {i : Instr} {s : State} (h : ¬ presentsOutOfRange i s) :
    ∀ c ∈ storedCells i s, c.1 < 0x10000 := by
  cases i
  case ldHldA | ldHlA => exact List.forall_mem_singleton.mpr s.hl.isLt
  case ldhU8A | ldhCA => exact List.forall_mem_singleton.mpr (highPage_lt _)
  case pushBc => exact List.forall_mem_cons.mpr ⟨(s.sp - 1).isLt, List.forall_mem_singleton.mpr (s.sp - 1 - 1).isLt⟩
  case callA16 => exact callCells_lt fun hsp => h (.inr ⟨.inl rfl, hsp⟩)
  case callZA16 =>
    rw [storedCells]
    split
    · next hz => exact callCells_lt fun hsp => h (.inr ⟨.inr ⟨rfl, hz⟩, hsp⟩)
    · exact List.forall_mem_nil _
  all_goals exact List.forall_mem_nil _

/-- No instruction makes more than four accesses of its own. -/
theorem accesses_length_le (i : Instr) (s : State) : (readAddrs i s).length + (storedCells i s).length ≤ 4 := by
  cases i
  case callZA16 => cases hz : flagZ s.f <;> simp [readAddrs, storedCells, callCells, hz]
  all_goals simp [readAddrs, storedCells, callCells]

/-- The rules of the extended table make no access of their own. -/
theorem accesses_of_cb {i : Instr} (h : i.format = .cb) (s : State) : readAddrs i s = [] ∧ storedCells i s = [] := by
  cases i
  case rlC | bit7H => exact ⟨rfl, rfl⟩
  all_goals cases h

theorem storedAddrs_nodup (i : Instr) (s : State) : (storedAddrs i s).Nodup := by
  have hcall : ((callCells s).map (·.1)).Nodup := by simp [callCells]
  cases i
  case pushBc =>
    have hne : (s.sp - 1).toNat ≠ (s.sp - 1 - 1).toNat := by bv_omega
    simpa [storedAddrs, storedCells] using hne
  case callA16 => exact hcall
  case callZA16 =>
    rw [storedAddrs, storedCells]
    split
    · exact hcall
    · exact List.nodup_nil
  all_goals simp [storedAddrs, storedCells]

theorem effect_accessed {i : Instr} {s : State} (h : ¬ presentsOutOfRange i s) :
    Bus.Accessed 4 s.bus (effect i s).bus :=
  ⟨_, _, effect_bus i s, readAddrs_lt h, storedCells_lt h, accesses_length_le i s⟩

/-- After an instruction that completes, RAM answers with each byte it stored. -/
theorem effect_answer_stored {i : Instr} {s : State} (hwf : s.bus.mem.wf = true) {addr : Nat} {v : Byte}
    (hcell : (addr, v) ∈ storedCells i s) (hram : s.bus.isOracle addr = false) :
    (effect i s).bus.answer addr = v := by
  rw [effect_bus]
  exact Bus.answer_afterWrites (by simpa using hwf) (storedAddrs_nodup i s) hcell (by simpa using hram)

/-- Settles O44: reads leave RAM alone, and the writes are those of `storedCells`. -/
theorem bytesNotStoredAreKept : Obligations.BytesNotStoredAreKept := by
  intro i s t h addr haddr
  obtain ⟨-, rfl⟩ := exec_next.mp h
  rw [effect_bus, Bus.afterWrites_read_other _ haddr, Bus.afterReads_mem]

end Sys2Proof.Machine
end

section
/-! The register frame, the flag frame and noninterference (R27, R28, R34): the fields of `effect`, instruction by
instruction, against the access table and the flag table. -/

namespace Sys2Proof.Machine

@[simp] theorem effect_status (i : Instr) (s : State) : (effect i s).status = s.status := by
  cases i
  case callZA16 => cases hz : flagZ s.f <;> simp [effect, hz, afterCall]
  all_goals rfl

@[simp] theorem effect_oracleAt (i : Instr) (s : State) : (effect i s).bus.oracleAt = s.bus.oracleAt := by
  rw [effect_bus, Bus.afterWrites_oracleAt, Bus.afterReads_oracleAt]

@[simp] theorem effect_isOracle (i : Instr) (s : State) (x : Nat) :
    (effect i s).bus.isOracle x = s.bus.isOracle x := by
  rw [effect_bus, Bus.afterWrites_isOracle, Bus.afterReads_isOracle]

/-- A call writes PC, SP and the bus only, taken or not. -/
theorem effect_callZA16_get8 (s : State) (r : Reg8) : (effect .callZA16 s).get8 r = s.get8 r := by
  rw [effect]
  split <;> cases r <;> rfl

theorem effect_get8 {i : Instr} {r : Reg8} (h : r ∉ writtenRegs i) (s : State) : (effect i s).get8 r = s.get8 r := by
  cases i
  case callZA16 => exact effect_callZA16_get8 s r
  all_goals cases r <;> simp [writtenRegs] at h <;> rfl

/-- The instruction does not write SP in this state: its SP column of R34 is empty, or it is a call not taken. -/
def leavesSp (i : Instr) (s : State) : Prop := writesSp i = false ∨ (i = .callZA16 ∧ flagZ s.f = false)

theorem effect_sp {i : Instr} {s : State} (h : leavesSp i s) : (effect i s).sp = s.sp := by
  rcases h with h | ⟨rfl, hz⟩
  · cases i <;> simp [writesSp] at h <;> rfl
  · simp [effect, hz]

/-- Settles O41: the fields of `effect`. -/
theorem registersNotWrittenAreKept : Obligations.RegistersNotWrittenAreKept := by
  intro i s t h
  obtain ⟨-, rfl⟩ := exec_next.mp h
  exact ⟨fun r hr => effect_get8 hr s, fun hsp => effect_sp (.inl hsp),
    fun hcall hz => effect_sp (.inr ⟨hcall, hz⟩), effect_status i s, effect_oracleAt i s⟩

/-! ### Flags -/

/-- The bits of F after an instruction: those of its row of R28 aside, they are as they were. -/
theorem effect_flagBit {i : Instr} {n : Nat} (h : n ∉ writtenFlagBits i) (s : State) :
    (effect i s).f.getLsbD n = s.f.getLsbD n := by
  by_cases hf : Reg8.f ∈ writtenRegs i
  · cases i <;> simp [writtenRegs] at hf
    case rlcA | rla =>
      have hn : n ≠ 4 := by simpa [writtenFlagBits] using h
      simp [effect, flagsAfterRotateA, withC, getLsbD_withBit, hn]
    case decB =>
      have hn : n ≠ 7 := by simpa [writtenFlagBits] using h
      simp [effect, flagsAfterDec, withZ, getLsbD_withBit, hn]
    case xorA =>
      have hn : n ≠ 7 := by simpa [writtenFlagBits] using h
      simp [effect, flagsAfterXor, withZ, getLsbD_withBit, hn]
    case rlC =>
      have hn : 8 ≤ n := by
        simp [writtenFlagBits] at h
        omega
      rw [BitVec.getLsbD_of_ge _ _ hn, BitVec.getLsbD_of_ge _ _ hn]
    case bit7H =>
      obtain ⟨h5, h6, h7⟩ : n ≠ 5 ∧ n ≠ 6 ∧ n ≠ 7 := by simpa [writtenFlagBits] using h
      simp [effect, getLsbD_flagsAfterBit, h5, h6, h7]
  · exact congrArg (·.getLsbD n) (effect_get8 hf s)

/-- Settles O43: each flag write changes its own bit. -/
theorem flagBitsNotWrittenAreKept : Obligations.FlagBitsNotWrittenAreKept := by
  intro i s t h n hn
  obtain ⟨-, rfl⟩ := exec_next.mp h
  exact effect_flagBit hn s

/-- Bits 3..0 of F are kept, or cleared by RL C (R26, R122). -/
theorem effect_lowNibbleZero (i : Instr) {s : State} (h : lowNibbleZero s.f) : lowNibbleZero (effect i s).f := by
  by_cases hf : Reg8.f ∈ writtenRegs i
  · cases i <;> simp [writtenRegs] at hf
    case rlC => exact (lowNibbleZero_withZ _ _).mpr ((lowNibbleZero_withC _ _).mpr lowNibbleZero_zero)
    all_goals simpa [effect, flagsAfterRotateA, flagsAfterDec, flagsAfterXor, flagsAfterBit] using h
  · have hkeep : (effect i s).f = s.f := effect_get8 hf s
    rwa [hkeep]

/-! ### Noninterference (R34) -/

@[simp] theorem State.set8_pc (s : State) (r : Reg8) (v : Byte) : (s.set8 r v).pc = s.pc := by cases r <;> rfl
@[simp] theorem State.set8_sp (s : State) (r : Reg8) (v : Byte) : (s.set8 r v).sp = s.sp := by cases r <;> rfl
@[simp] theorem State.set8_bus (s : State) (r : Reg8) (v : Byte) : (s.set8 r v).bus = s.bus := by cases r <;> rfl
theorem State.set8_f {r : Reg8} (h : r ≠ .f) (s : State) (v : Byte) : (s.set8 r v).f = s.f := by
  cases r <;> simp at h <;> rfl

/-- A call depends on no 8-bit register. -/
theorem afterCall_set8 (s : State) (r : Reg8) (v : Byte) : afterCall (s.set8 r v) = (afterCall s).set8 r v := by
  cases r <;> rfl

/-- Whether a call is taken depends on F only, and on F only where the instruction reads it. -/
theorem callTaken_set8 {i : Instr} {r : Reg8} (hr : r ∉ readRegs i) (s : State) (v : Byte) :
    callTaken i (s.set8 r v) ↔ callTaken i s := by
  unfold callTaken
  refine or_congr_right (and_congr_right fun hi => ?_)
  subst hi
  rw [State.set8_f (by simpa [readRegs] using hr)]

theorem effect_set8 {i : Instr} {r : Reg8} (hw : r ∉ writtenRegs i) (hr : r ∉ readRegs i) (s : State) (v : Byte) :
    effect i (s.set8 r v) = (effect i s).set8 r v := by
  cases i
  case callZA16 =>
    have hz : flagZ (s.set8 r v).f = flagZ s.f := congrArg flagZ (State.set8_f (by simpa [readRegs] using hr) s v)
    rw [effect, effect, hz]
    split
    · exact afterCall_set8 s r v
    · cases r <;> rfl
  all_goals cases r <;> simp [writtenRegs, readRegs] at hw hr <;> rfl

theorem effect_setSp {i : Instr} {s : State} (h : leavesSp i s) (v : Word) :
    effect i { s with sp := v } = { effect i s with sp := v } := by
  rcases h with h | ⟨rfl, hz⟩
  · cases i <;> simp [writesSp] at h <;> rfl
  · simp [effect, hz]

/-- What can fault writes SP. -/
theorem not_presentsOutOfRange {i : Instr} {s : State} (h : leavesSp i s) : ¬ presentsOutOfRange i s := by
  have hcall : ¬ callTaken i s := by
    rintro (rfl | ⟨rfl, hset⟩)
    · simp [leavesSp, writesSp] at h
    · simp [leavesSp, writesSp, hset] at h
  have hword : i ≠ .ldSpU16 := by
    rintro rfl
    simp [leavesSp, writesSp] at h
  simp [presentsOutOfRange, hcall, hword]

/-- Settles O42: whether an instruction completes or faults depends on PC, SP and the flag it reads, and its effect
commutes with the change of the register. -/
theorem unaccessedRegistersHaveNoPart : Obligations.UnaccessedRegistersHaveNoPart := by
  constructor
  case left =>
    intro i s r v hw hr
    have hcall := callTaken_set8 hr s v
    rcases exec_cases i s with ⟨hrange, h⟩ | ⟨hword, hpc, h⟩ | ⟨htaken, hpc, hsp, h⟩ <;> rw [h]
    · have hrange' : ¬ presentsOutOfRange i (s.set8 r v) := by
        simpa only [presentsOutOfRange, hcall, State.set8_pc, State.set8_sp] using hrange
      rw [exec_of_inRange hrange', effect_set8 hw hr]
      rfl
    · rw [exec_of_operand_top (hword.imp_right hcall.mpr) (by simpa using hpc), operandFault, State.set8_bus]
      rfl
    · rw [exec_of_push_one (hcall.mpr htaken) (by simpa using hpc) (by simpa using hsp)]
      simp [mapNext, pushFault, afterOperandRead]
  case right =>
    intro i s v h
    have h' : leavesSp i { s with sp := v } := h
    rw [exec_of_inRange (not_presentsOutOfRange h'), exec_of_inRange (not_presentsOutOfRange h), effect_setSp h]
    rfl

end Sys2Proof.Machine
end

section
/-! Arithmetic and rotates (R110-R124): the flag writes as masks, the left shift bit by bit, and the whole next states
of the statements. -/

namespace Sys2Proof.Machine

/-! ### Flag writes as masks -/

theorem withZ_eq_mask (v : Bool) (f : Byte) : withZ v f = if v then f ||| 0x80#8 else f &&& 0x7F#8 := rfl
theorem withC_eq_mask (v : Bool) (f : Byte) : withC v f = if v then f ||| 0x10#8 else f &&& 0xEF#8 := rfl

/-- The inverted Z of DEC B as a case split on the result (R112, D9). -/
theorem flagsAfterDec_eq (result f : Byte) :
    flagsAfterDec result f = if result = 0#8 then f &&& 0x7F#8 else f ||| 0x80#8 := by
  rw [flagsAfterDec, withZ_eq_mask, zOfNonZero]
  by_cases h : result = 0#8 <;> simp [h]

/-- The two flags RL C writes, over a cleared F (R122). -/
theorem flagsAfterRlC_eq (carryOut : Bool) (result : Byte) :
    flagsAfterRlC carryOut result =
      (if result = 0#8 then 0x00#8 else 0x80#8) ||| (if carryOut then 0x10#8 else 0x00#8) := by
  rw [flagsAfterRlC, withZ_eq_mask, withC_eq_mask, zOfNonZero]
  by_cases h : result = 0#8 <;> cases carryOut <;> simp [h]

/-- Settles O26: the meaning writes C alone. -/
theorem incCWritesNoFlag : Obligations.IncCWritesNoFlag := ⟨⟨rfl, rfl, rfl, rfl⟩, fun _ => rfl⟩

/-- Settles O27: the flag write as a mask. -/
theorem decBInvertsZ : Obligations.DecBInvertsZ :=
  ⟨⟨rfl, rfl, rfl, rfl⟩, fun s => by rw [exec, execDecB, flagsAfterDec_eq]⟩

/-- Settles O28: a byte exclusive-or itself is zero. -/
theorem xorAClearsA : Obligations.XorAClearsA :=
  ⟨⟨rfl, rfl, rfl, rfl⟩, fun s => by rw [exec, execXorA, BitVec.xor_self, flagsAfterXor, withZ_eq_mask, if_pos rfl]⟩

/-! ### The left shift -/

theorem shiftLeftIn_eq (bit0 : Bool) (x : Byte) :
    shiftLeftIn bit0 x = (x <<< 1) ||| (if bit0 then 1#8 else 0#8) := rfl

theorem getLsbD_shiftLeftIn (bit0 : Bool) (x : Byte) (i : Nat) :
    (shiftLeftIn bit0 x).getLsbD i = if i = 0 then bit0 else decide (i < 8) && x.getLsbD (i - 1) := by
  rcases Nat.eq_zero_or_pos i with rfl | hi
  · cases bit0 <;> simp [shiftLeftIn]
  · cases bit0 <;> simp [shiftLeftIn, BitVec.getLsbD_one, Nat.ne_of_gt hi]

/-- With its own bit 7 shifted in, a byte rotates (R120). -/
theorem shiftLeftIn_carryOutLeft (x : Byte) : shiftLeftIn (carryOutLeft x) x = x.rotateLeft 1 := by
  apply BitVec.eq_of_getLsbD_eq
  intro i hi
  rw [getLsbD_shiftLeftIn, BitVec.getLsbD_rotateLeft]
  rcases Nat.eq_zero_or_pos i with rfl | hpos
  · rfl
  · simp [hi, Nat.ne_of_gt hpos]

/-- With the carry shifted in and bit 7 shifted out, carry and byte rotate as nine bits (R124). -/
theorem cons_shiftLeftIn (carry : Bool) (x : Byte) :
    BitVec.cons (carryOutLeft x) (shiftLeftIn carry x) = (BitVec.cons carry x).rotateLeft 1 := by
  apply BitVec.eq_of_getLsbD_eq
  intro i hi
  rw [BitVec.getLsbD_rotateLeft, BitVec.getLsbD_cons, getLsbD_shiftLeftIn]
  interval_cases i <;> simp [BitVec.getElem_cons, carryOutLeft]

/-- Settles O29: the bit shifted in is the one shifted out. -/
theorem rlcARotatesCircularly : Obligations.RlcARotatesCircularly :=
  ⟨⟨rfl, rfl, rfl, rfl⟩,
    fun s => by rw [exec, execRlcA, shiftLeftIn_carryOutLeft, flagsAfterRotateA, withC_eq_mask, carryOutLeft]⟩

/-- Settles O30: the meaning, with its flag write as a mask. -/
theorem rlaRotatesThroughCarry : Obligations.RlaRotatesThroughCarry :=
  ⟨⟨rfl, rfl, rfl, rfl⟩,
    fun s => by rw [exec, execRla, flagsAfterRotateA, withC_eq_mask, carryOutLeft, shiftLeftIn_eq, flagC]⟩

/-- Settles O31: the meaning, with its two flag writes as masks. -/
theorem rlCRewritesF : Obligations.RlCRewritesF :=
  ⟨⟨rfl, rfl, rfl, rfl⟩,
    fun s => by simp only [exec, execRlC, flagsAfterRlC_eq, carryOutLeft, shiftLeftIn_eq, flagC]⟩

/-- Settles O33: the rotate laws of the shift, and what each flag write leaves of the other flags. -/
theorem rotatesAreNineBit : Obligations.RotatesAreNineBit := by
  refine ⟨fun s t h => ?rla, fun s t h => ?rlC, fun s t h => ?rlcA⟩
  case rla =>
    obtain ⟨-, rfl⟩ := exec_next.mp h
    simp [effect, flagsAfterRotateA, cons_shiftLeftIn]
  case rlC =>
    obtain ⟨-, rfl⟩ := exec_next.mp h
    simp [effect, flagsAfterRlC, cons_shiftLeftIn, zOfNonZero]
  case rlcA =>
    obtain ⟨-, rfl⟩ := exec_next.mp h
    refine ⟨shiftLeftIn_carryOutLeft s.a, ?_⟩
    simp [effect, flagsAfterRotateA, carryOutLeft]

end Sys2Proof.Machine
end

section
/-! Register pairs as numbers (R21), and control transfer (R140-R143, R172): targets, calls and where they fault. -/

namespace Sys2Proof

/-- The word of two bytes as a number (R21, R64). -/
theorem toNat_wordOfBytes (lo hi : Byte) : (wordOfBytes lo hi).toNat = hi.toNat * 256 + lo.toNat := by
  have := lo.isLt
  have := hi.isLt
  have hshift : (hi.setWidth 16 <<< 8).toNat = hi.toNat <<< 8 := by simp [Nat.shiftLeft_eq]; omega
  rw [wordOfBytes, BitVec.or_comm, BitVec.toNat_or, hshift, BitVec.toNat_setWidth, Nat.mod_eq_of_lt (by omega),
    ← Nat.shiftLeft_add_eq_or_of_lt lo.isLt, Nat.shiftLeft_eq]

theorem toNat_hiByte (v : Word) : (hiByte v).toNat = v.toNat / 256 := by
  have := v.isLt
  simp [hiByte, Nat.shiftRight_eq_div_pow]
  omega

theorem toNat_loByte (v : Word) : (loByte v).toNat = v.toNat % 256 := by
  simp [loByte]

end Sys2Proof

namespace Sys2Proof.Machine

/-- Settles O46: each pair is the word of its registers, and the bytes of a word give it back. -/
theorem pairsAreViews : Obligations.PairsAreViews := fun s v =>
  ⟨toNat_wordOfBytes s.c s.b, toNat_wordOfBytes s.e s.d, toNat_wordOfBytes s.l s.h, wordOfBytes_lo_hi v,
    toNat_hiByte v, toNat_loByte v⟩

/-! ### Relative targets (R63, R141) -/

/-- The target is PC plus the offset, sign-extended and wrapped (R24). -/
theorem relativeTarget_eq (pc : Word) (off : Byte) : relativeTarget pc off = pc + off.signExtend 16 := by
  rw [relativeTarget, sext8_eq_toInt, BitVec.ofInt_add, BitVec.ofInt_natCast, BitVec.ofNat_toNat, BitVec.setWidth_eq]
  rfl

/-- The byte of an offset in range reaches the offset's target. -/
theorem relativeTarget_r8Byte {offset : Int} (h : -128 ≤ offset ∧ offset ≤ 127) (pc : Word) :
    relativeTarget pc (r8Byte offset) = pc + BitVec.ofInt 16 offset := by
  rw [relativeTarget, sext8_r8Byte h, BitVec.ofInt_add, BitVec.ofInt_natCast, BitVec.ofNat_toNat, BitVec.setWidth_eq]

/-- The distance from one word to another, added modulo 65536, reaches it across the wrap too. -/
theorem add_ofInt_distance (target pc : Word) (n : Nat) :
    pc + BitVec.ofNat 16 n + BitVec.ofInt 16 ((target.toNat : Int) - ((pc.toNat : Int) + n)) = target := by
  have hdistance : BitVec.ofInt 16 ((target.toNat : Int) - ((pc.toNat : Int) + n)) =
      target - (pc + BitVec.ofNat 16 n) := by
    simp [Int.sub_eq_add_neg, BitVec.ofInt_add, BitVec.ofInt_neg, BitVec.sub_eq_add_neg]
  rw [hdistance, add_sub_cancel]

/-- Settles O7: the assembler's offset is the distance, which the relative target adds back. -/
theorem jrTargetAssembles : Obligations.JrTargetAssembles := by
  intro addr target
  unfold jrOperand
  constructor
  · intro operand h
    obtain ⟨hrange, rfl⟩ := Option.ite_some_none_eq_some.mp h
    refine ⟨_, rfl, decide_eq_true hrange, ?_⟩
    rw [relativeTarget_r8Byte hrange]
    exact add_ofInt_distance target addr 2
  · simp only [ite_eq_right_iff, reduceCtorEq, imp_false]
    omega

/-- Settles O38: `exec_jrNzR8`, with the target as a sum. -/
theorem jrNzBranchesOnZClear : Obligations.JrNzBranchesOnZClear :=
  ⟨⟨rfl, rfl, rfl, rfl⟩, fun s => by rw [exec_jrNzR8, relativeTarget_eq, flagZ]⟩

/-! ### Word operands and calls (R95, R142, R143) -/

/-- Settles O21: the word read at PC, in range and out of range. -/
theorem ldSpLoadsWord : Obligations.LdSpLoadsWord :=
  ⟨⟨rfl, rfl, rfl, rfl⟩, fun _ hpc => exec_ldSpU16_of_ne hpc, fun _ hpc => exec_ldSpU16_of_top hpc⟩

/-- Settles O39: the three outcomes of a call. -/
theorem callPushesAndJumps : Obligations.CallPushesAndJumps :=
  ⟨⟨rfl, rfl, rfl, rfl⟩, fun _ hpc hsp => call_of_ne hpc hsp, fun _ hpc => call_of_top hpc,
    fun _ hpc hsp => call_of_one hpc hsp⟩

/-- Settles O40: with Z set the outcomes are those of the call; with Z clear PC alone changes. -/
theorem callZTakenOnZSet : Obligations.CallZTakenOnZSet :=
  ⟨⟨rfl, rfl, rfl, rfl⟩,
    fun _ hz hpc hsp => (exec_of_callTaken (.inr ⟨rfl, hz⟩)).trans (call_of_ne hpc hsp),
    fun _ hz hpc => exec_of_operand_top (.inr (.inr ⟨rfl, hz⟩)) hpc,
    fun _ hz hpc hsp => exec_of_push_one (.inr ⟨rfl, hz⟩) hpc hsp,
    fun _ hz => exec_callZA16_of_clear hz⟩

/-- Settles O49: a created machine has a zero F, so Z is clear. -/
theorem freshFlagsDecideBranches : Obligations.FreshFlagsDecideBranches := by
  intro bus pc
  refine ⟨flagZ_zero, flagN_zero, flagH_zero, flagC_zero, ⟨_, exec_jrNzR8 _, ?_⟩, exec_callZA16_of_clear flagZ_zero⟩
  simp [relativeTarget_eq]

/-- Settles O48: a reset input is a creation with the bus the machine has. -/
theorem resetInputKeepsBus : Obligations.ResetInputKeepsBus := fun _ => ⟨rfl, rfl⟩

end Sys2Proof.Machine
end

section
/-! Steps (R80-R88). A step is the effect of the rule it dispatches, a fault of that rule, or the report that there is
none; its accesses are the opcode fetch and at most four more. -/

namespace Sys2Proof.Machine

/-! ### The fetched state -/

theorem firstByte_of_ram {s : State} (h : s.bus.isOracle s.pc.toNat = false) :
    firstByte s = s.bus.mem.read s.pc.toNat := Bus.answer_of_ram h

theorem secondByte_of_ram {s : State} (h : s.bus.isOracle (s.pc + 1).toNat = false) :
    secondByte s = s.bus.mem.read (s.pc + 1).toNat :=
  (Bus.answer_afterRead h s.pc.toNat).trans (Bus.answer_of_ram h)

/-- The rule of a step is a primary one, whose opcode is the first byte, or stands behind the prefix. -/
theorem dispatched_cases {s : State} {i : Instr} (h : dispatched s = some i) :
    (i.format ≠ .cb ∧ opcodeBytes i = [firstByte s] ∧ decodePrimary (firstByte s) = some i ∧
      afterFetch s = afterOpcodeFetch s) ∨
    (i.format = .cb ∧ firstByte s = cbPrefix ∧ afterFetch s = afterPrefixFetch s) := by
  by_cases hb : firstByte s = cbPrefix
  · rw [dispatched_of_prefix hb] at h
    exact .inr ⟨(opcodeBytes_of_decodeCb h).2, hb, afterFetch_of_prefix hb⟩
  · rw [dispatched_of_ne_prefix hb] at h
    obtain ⟨hbytes, hformat⟩ := opcodeBytes_of_decodePrimary h
    exact .inl ⟨hformat, hbytes, h, afterFetch_of_ne_prefix hb⟩

/-- A primary byte's rule is dispatched exactly where it is the first byte (R82). -/
theorem dispatched_iff_firstByte {b : Byte} {i : Instr} (hb : decodePrimary b = some i) (s : State) :
    dispatched s = some i ↔ firstByte s = b := by
  obtain ⟨hbytes, hformat⟩ := opcodeBytes_of_decodePrimary hb
  constructor
  · intro h
    rcases dispatched_cases h with ⟨-, hfirst, -, -⟩ | ⟨hcb, -, -⟩
    · simpa using hfirst.symm.trans hbytes
    · exact absurd hcb hformat
  · rintro rfl
    rw [dispatched_of_ne_prefix (ne_prefix_of_decodePrimary hb), hb]

/-- Only primary rules can fault, and their state is the one with one byte fetched. -/
theorem afterFetch_of_wordOperand {s : State} {i : Instr} (h : dispatched s = some i)
    (hword : i = .ldSpU16 ∨ callTaken i (afterFetch s)) : afterFetch s = afterOpcodeFetch s := by
  rcases dispatched_cases h with ⟨-, -, -, hfetch⟩ | ⟨hcb, -, -⟩
  · exact hfetch
  · rcases hword with rfl | rfl | ⟨rfl, -⟩ <;> cases hcb

/-! ### The outcomes of a step -/

/-- The state after a step that finds no rule: the report, and the bytes of the fetch consumed (R85, R86). -/
def afterReport (s : State) : State :=
  { afterFetch s with
    status :=
      if firstByte s = cbPrefix then .unimplementedOpcode .cb (secondByte s) s.pc
      else .unimplementedOpcode .primary (firstByte s) s.pc }

@[simp] theorem afterReport_f (s : State) : (afterReport s).f = s.f := afterFetch_f s

theorem afterReport_of_ne_prefix {s : State} (h : firstByte s ≠ cbPrefix) :
    afterReport s =
      { afterOpcodeFetch s with status := .unimplementedOpcode .primary (firstByte s) s.pc } := by
  rw [afterReport, afterFetch_of_ne_prefix h, if_neg h]

theorem afterReport_of_prefix {s : State} (h : firstByte s = cbPrefix) :
    afterReport s = { afterPrefixFetch s with status := .unimplementedOpcode .cb (secondByte s) s.pc } := by
  rw [afterReport, afterFetch_of_prefix h, if_pos h]

/-- A step without a rule reports it and goes on from the fetched state (R85, R86). -/
theorem step_of_not_dispatched {s : State} (h : dispatched s = none) : step s = .next (afterReport s) := by
  rw [step_eq, h]
  rfl

/-- Everything a step that goes on can have done: no rule's report, or the effect of its rule. -/
theorem step_next {s t : State} (h : step s = .next t) :
    (dispatched s = none ∧ t = afterReport s) ∨
    ∃ i, dispatched s = some i ∧ ¬ presentsOutOfRange i (afterFetch s) ∧ t = effect i (afterFetch s) := by
  cases hd : dispatched s with
  | none =>
    rw [step_of_not_dispatched hd] at h
    cases h
    exact .inl ⟨rfl, rfl⟩
  | some i =>
    rw [step_of_dispatched hd] at h
    exact .inr ⟨i, rfl, exec_next.mp h⟩

/-- Everything a step that faults can have done: its rule faulted. -/
theorem step_fault {s : State} {r : Fault} (h : step s = .fault r) :
    ∃ i, dispatched s = some i ∧ exec i (afterFetch s) = .fault r := by
  cases hd : dispatched s with
  | none => cases (step_of_not_dispatched hd).symm.trans h
  | some i => exact ⟨i, rfl, (step_of_dispatched hd).symm.trans h⟩

theorem step_fault_iff {s : State} :
    (∃ r, step s = .fault r) ↔ ∃ i, dispatched s = some i ∧ presentsOutOfRange i (afterFetch s) := by
  constructor
  · rintro ⟨r, h⟩
    obtain ⟨i, hd, he⟩ := step_fault h
    exact ⟨i, hd, exec_fault_iff.mp ⟨r, he⟩⟩
  · rintro ⟨i, hd, hrange⟩
    rw [step_of_dispatched hd]
    exact exec_fault_iff.mpr hrange

/-! ### The accesses of a step -/

/-- The fetch of a byte behind the prefix is one more read. -/
theorem afterPrefixFetch_accessed (s : State) :
    Bus.Accessed 4 (s.bus.afterRead s.pc.toNat) (afterPrefixFetch s).bus :=
  ⟨[(s.pc + 1).toNat], [], rfl, List.forall_mem_singleton.mpr (s.pc + 1).isLt, List.forall_mem_nil _, by simp⟩

theorem afterOpcodeFetch_accessed (s : State) :
    Bus.Accessed 4 (s.bus.afterRead s.pc.toNat) (afterOpcodeFetch s).bus :=
  ⟨[], [], rfl, List.forall_mem_nil _, List.forall_mem_nil _, by decide⟩

/-- A step that goes on reads the opcode at PC and makes at most four accesses after it. -/
theorem step_next_accessed {s t : State} (h : step s = .next t) :
    Bus.Accessed 4 (s.bus.afterRead s.pc.toNat) t.bus := by
  rcases step_next h with ⟨-, rfl⟩ | ⟨i, hd, hrange, rfl⟩
  · by_cases hb : firstByte s = cbPrefix
    · rw [afterReport_of_prefix hb]
      exact afterPrefixFetch_accessed s
    · rw [afterReport_of_ne_prefix hb]
      exact afterOpcodeFetch_accessed s
  · rcases dispatched_cases hd with ⟨-, -, -, hfetch⟩ | ⟨hcb, -, hfetch⟩
    · rw [hfetch] at hrange ⊢
      exact effect_accessed hrange
    · obtain ⟨hreads, hcells⟩ := accesses_of_cb hcb (afterFetch s)
      rw [effect_bus, hreads, hcells, hfetch]
      exact afterPrefixFetch_accessed s

/-- A fault of an instruction: its bus is what the reads, and the one write, before it made of it. -/
theorem exec_fault_accessed {i : Instr} {s : State} {addr : Nat} {bus : Bus}
    (h : exec i s = .fault (.busFault addr bus)) : Bus.Accessed 4 s.bus bus := by
  rcases exec_fault h with ⟨-, -, hr⟩ | ⟨-, hpc, -, hr⟩ <;> cases hr
  · exact ⟨[0xFFFF], [], rfl, List.forall_mem_singleton.mpr (by decide), List.forall_mem_nil _, by decide⟩
  · exact ⟨[s.pc.toNat, s.pc.toNat + 1], [(0xFFFF, loByte (s.pc + 2))], rfl, operandAddrs_lt hpc,
      List.forall_mem_singleton.mpr (Nat.lt_succ_self 0xFFFF), by simp⟩

/-- A step that faults has made its accesses in the same order (R152). -/
theorem step_fault_accessed {s : State} {addr : Nat} {bus : Bus} (h : step s = .fault (.busFault addr bus)) :
    Bus.Accessed 4 (s.bus.afterRead s.pc.toNat) bus := by
  obtain ⟨i, hd, he⟩ := step_fault h
  have hword : i = .ldSpU16 ∨ callTaken i (afterFetch s) := by
    rcases exec_fault he with ⟨hword, -, -⟩ | ⟨hcall, -, -, -⟩
    · exact hword
    · exact .inr hcall
  have hbus := exec_fault_accessed he
  rwa [afterFetch_of_wordOperand hd hword] at hbus

/-! ### Invariants -/

/-- Settles O50: nothing is listed, nothing has been accessed and F is zero. -/
theorem resetMeetsInvariant : Obligations.ResetMeetsInvariant := ⟨⟨rfl, rfl, rfl⟩, lowNibbleZero_zero⟩

/-- Settles O51: the bus is kept in order by its accesses, F[3:0] by the rule's flag writes. -/
theorem stepKeepsInvariant : Obligations.StepKeepsInvariant := by
  intro s t ⟨hbus, hflags⟩ h
  refine ⟨(step_next_accessed h).ok (hbus.afterRead s.pc.isLt), ?_⟩
  rcases step_next h with ⟨-, rfl⟩ | ⟨i, -, -, rfl⟩
  · rwa [afterReport_f]
  · exact effect_lowNibbleZero i (by rwa [afterFetch_f])

/-- Settles O54: each access of the step keeps RAM consistent with the history. -/
theorem stepKeepsRamConsistent : Obligations.StepKeepsRamConsistent := by
  intro launch s t hram h
  exact (step_next_accessed h).ramConsistent (hram.afterRead s.pc.toNat)

/-- Settles O55: the opcode fetch, and after it the accesses of `Bus.Accessed`, for both outcomes. -/
theorem readsPrecedeWrites : Obligations.ReadsPrecedeWrites := by
  intro s bus h
  have hbus : Bus.Accessed 4 (s.bus.afterRead s.pc.toNat) bus := by
    rcases h with ⟨t, h, rfl⟩ | ⟨addr, h⟩
    · exact step_next_accessed h
    · exact step_fault_accessed h
  exact hbus.history

/-! ### Status, refusals, faults and safe steps -/

/-- Settles O13: the fetch sets `Ok`, which no rule changes; without a rule the report is the status. -/
theorem stepReportsStatus : Obligations.StepReportsStatus := by
  intro s t h
  rcases step_next h with ⟨hd, rfl⟩ | ⟨i, hd, -, rfl⟩
  · simp [hd, afterReport]
  · simp [hd]

/-- Settles O14: neither a rule nor the report refuses. -/
theorem stepIsNeverRefused : Obligations.StepIsNeverRefused := by
  intro s r h
  cases hd : dispatched s with
  | none => cases (step_of_not_dispatched hd).symm.trans h
  | some i => exact exec_ne_refused i (afterFetch s) r ((step_of_dispatched hd).symm.trans h)

/-- Settles O16: a step that reports `Ok` has a rule, and that rule completes. -/
theorem safeStepExactly : Obligations.SafeStepExactly := by
  intro s
  constructor
  · rintro ⟨t, h, hok⟩
    rcases step_next h with ⟨-, rfl⟩ | ⟨i, hd, hrange, -⟩
    · rw [afterReport] at hok
      split at hok <;> cases hok
    · exact ⟨i, hd, hrange⟩
  · rintro ⟨i, hd, hrange⟩
    exact ⟨_, (step_of_dispatched hd).trans (exec_of_inRange hrange), by simp⟩

/-- A taken call is dispatched by the first byte 0xCD, or by 0xCC with Z set (R142, R143). -/
theorem callTaken_dispatched (s : State) :
    (∃ i, dispatched s = some i ∧ callTaken i (afterFetch s)) ↔
      firstByte s = 0xCD#8 ∨ (firstByte s = 0xCC#8 ∧ flagZ s.f = true) := by
  rw [← dispatched_iff_firstByte (i := .callA16) (by decide), ← dispatched_iff_firstByte (i := .callZA16) (by decide)]
  simp only [callTaken, afterFetch_f]
  constructor
  · rintro ⟨i, hd, rfl | ⟨rfl, hz⟩⟩
    · exact .inl hd
    · exact .inr ⟨hd, hz⟩
  · rintro (hd | ⟨hd, hz⟩)
    · exact ⟨_, hd, .inl rfl⟩
    · exact ⟨_, hd, .inr ⟨rfl, hz⟩⟩

/-- The rules that read a word at PC are LD SP,u16 and the taken calls (R95, R142). -/
theorem wordOperand_dispatched (s : State) :
    (∃ i, dispatched s = some i ∧ (i = .ldSpU16 ∨ callTaken i (afterFetch s))) ↔
      firstByte s = 0x31#8 ∨ firstByte s = 0xCD#8 ∨ (firstByte s = 0xCC#8 ∧ flagZ s.f = true) := by
  rw [← callTaken_dispatched, ← dispatched_iff_firstByte (i := .ldSpU16) (by decide)]
  constructor
  · rintro ⟨i, hd, rfl | hcall⟩
    · exact .inl hd
    · exact .inr ⟨i, hd, hcall⟩
  · rintro (hd | ⟨i, hd, hcall⟩)
    · exact ⟨_, hd, .inl rfl⟩
    · exact ⟨i, hd, .inr hcall⟩

/-- One byte fetched, PC is 0xFFFF where the opcode stands at 0xFFFE. -/
theorem afterOpcodeFetch_pc_eq_top {s : State} : (afterOpcodeFetch s).pc = 0xFFFF#16 ↔ s.pc = 0xFFFE#16 := by
  rw [afterOpcodeFetch]
  constructor <;> intro hpc <;> bv_omega

/-- The operand of a rule that reads a word at PC is out of range with the opcode at 0xFFFE. -/
theorem afterFetch_pc_eq_top {s : State} {i : Instr} (h : dispatched s = some i)
    (hword : i = .ldSpU16 ∨ callTaken i (afterFetch s)) : (afterFetch s).pc = 0xFFFF#16 ↔ s.pc = 0xFFFE#16 := by
  rw [afterFetch_of_wordOperand h hword, afterOpcodeFetch_pc_eq_top]

/-- Settles O15: the two places of `presentsOutOfRange`, with the rules named by their first bytes. -/
theorem stepFaultsExactly : Obligations.StepFaultsExactly := by
  constructor
  case left =>
    intro s
    rw [step_fault_iff, ← wordOperand_dispatched, ← callTaken_dispatched]
    constructor
    · rintro ⟨i, hd, ⟨hword, hpc⟩ | ⟨hcall, hsp⟩⟩
      · exact .inl ⟨⟨i, hd, hword⟩, (afterFetch_pc_eq_top hd hword).mp hpc⟩
      · exact .inr ⟨⟨i, hd, hcall⟩, by simpa using hsp⟩
    · rintro (⟨⟨i, hd, hword⟩, hpc⟩ | ⟨⟨i, hd, hcall⟩, hsp⟩)
      · exact ⟨i, hd, .inl ⟨hword, (afterFetch_pc_eq_top hd hword).mpr hpc⟩⟩
      · exact ⟨i, hd, .inr ⟨hcall, by simpa using hsp⟩⟩
  case right =>
    intro s addr bus h
    obtain ⟨i, -, he⟩ := step_fault h
    rcases exec_fault he with ⟨-, -, hr⟩ | ⟨-, -, -, hr⟩ <;> cases hr <;> rfl

/-- Settles O52: a faulting step's accesses keep the bus in order, and the two faults of `exec_fault` give them one by
one. -/
theorem faultLeavesBusInOrder : Obligations.FaultLeavesBusInOrder := by
  intro s addr bus hok h
  have hbus := step_fault_accessed h
  refine ⟨hbus.ok (hok.afterRead s.pc.isLt), hbus.oracleAt, ?_⟩
  obtain ⟨i, hd, he⟩ := step_fault h
  rcases exec_fault he with ⟨hword, hpc, hr⟩ | ⟨hcall, hpc, -, hr⟩
  · have hpc' : s.pc = 0xFFFE#16 := (afterFetch_pc_eq_top hd hword).mp hpc
    rw [afterFetch_of_wordOperand hd hword] at hr
    cases hr
    exact ⟨fun _ => by simp [afterOpcodeFetch, secondByte, firstByte, hpc'], fun hne => absurd hpc' hne⟩
  · have hpc' : s.pc ≠ 0xFFFE#16 := mt (afterFetch_pc_eq_top hd (.inr hcall)).mpr hpc
    rw [afterFetch_of_wordOperand hd (.inr hcall)] at hr
    cases hr
    refine ⟨fun heq => absurd heq hpc', fun _ => ?_⟩
    have hret : s.pc + 1 + 2 = s.pc + 3 := BitVec.add_assoc s.pc 1 2
    simp only [afterOperandRead, afterOpcodeFetch, hret]
    exact ⟨rfl, rfl⟩

/-! ### PC -/

/-- The instruction leaves PC behind its operand: it does not transfer control, or its branch is not taken. -/
def leavesPcBehind (i : Instr) (s : State) : Prop :=
  transfersControl i = false ∨ (i = .jrNzR8 ∧ flagZ s.f = true) ∨ (i = .callZA16 ∧ flagZ s.f = false)

theorem effect_pc {i : Instr} {s : State} (h : leavesPcBehind i s) :
    (effect i s).pc = s.pc + BitVec.ofNat 16 (i.length - (opcodeBytes i).length) := by
  rcases h with h | ⟨rfl, hz⟩ | ⟨rfl, hz⟩
  · cases i <;> simp [transfersControl] at h <;> simp [effect, Instr.length, Instr.format, Format.length, opcodeBytes]
  · simp [effect, hz, Instr.length, Instr.format, Format.length, opcodeBytes]
  · simp [effect, hz, Instr.length, Instr.format, Format.length, opcodeBytes]

/-- A rule leaves PC behind the whole instruction, opcode bytes included (R82-R84). -/
theorem effect_afterFetch_pc {s : State} {i : Instr} (hd : dispatched s = some i)
    (h : leavesPcBehind i (afterFetch s)) :
    (effect i (afterFetch s)).pc = s.pc + BitVec.ofNat 16 (lengthFromFirst (firstByte s)) := by
  rw [effect_pc h]
  rcases dispatched_cases hd with ⟨-, hbytes, hrule, hfetch⟩ | ⟨hcb, hprefix, hfetch⟩
  · rw [hfetch, hbytes, lengthFromFirst_of_decodePrimary hrule, afterOpcodeFetch]
    obtain ⟨n, hn⟩ := Nat.exists_eq_add_of_le (instr_length_range i).1
    simp only [hn, List.length_singleton, Nat.add_sub_cancel_left, BitVec.ofNat_add, BitVec.add_assoc]
    rfl
  · cases i <;> cases hcb <;>
      simp [hfetch, hprefix, afterPrefixFetch, Instr.length, Instr.format, Format.length, opcodeBytes]

/-- Settles O17: `effect_afterFetch_pc` where there is a rule; the bytes of the fetch where there is none. -/
theorem pcAfterStep : Obligations.PcAfterStep := by
  intro s t h hbehind
  rcases step_next h with ⟨hd, rfl⟩ | ⟨i, hd, -, rfl⟩
  · by_cases hb : firstByte s = cbPrefix
    · rw [afterReport_of_prefix hb, hb, lengthFromFirst_prefix]
      rfl
    · rw [dispatched_of_ne_prefix hb] at hd
      rw [afterReport_of_ne_prefix hb, lengthFromFirst_of_decodePrimary_none hb hd]
      rfl
  · refine effect_afterFetch_pc hd ?_
    simpa [leavesPcBehind, hd] using hbehind

/-- Settles O11: the report, from the state with the one byte fetched. -/
theorem unimplementedPrimaryStep : Obligations.UnimplementedPrimaryStep := by
  intro s hne hnone
  rw [step_of_not_dispatched ((dispatched_of_ne_prefix hne).trans hnone), afterReport_of_ne_prefix hne]
  rfl

/-- Settles O12: the report, from the state with both bytes fetched. -/
theorem unimplementedExtendedStep : Obligations.UnimplementedExtendedStep := by
  intro s hprefix hnone
  rw [step_of_not_dispatched ((dispatched_of_prefix hprefix).trans hnone),
    afterReport_of_prefix hprefix]
  rfl

/-- Settles O18: the fetch overwrites the status before anything can read it. -/
theorem statusIsNeverRead : Obligations.StatusIsNeverRead := fun _ _ => rfl

end Sys2Proof.Machine
end

section
/-! The step and the decoder (R60-R64, R80-R84): a step runs what the bytes at PC decode to, and computes with the
operand that decodes. The encoding gives the operand's bytes, and RAM answers the rule's own fetches with them. -/

namespace Sys2Proof.Machine

/-- The three bytes at PC and the two addresses after it, where the longest instruction stands. -/
def bytesAtPc (s : State) : List Byte :=
  [s.bus.mem.read s.pc.toNat, s.bus.mem.read (s.pc + 1).toNat, s.bus.mem.read (s.pc + 2).toNat]

/-- Settles O9: the decoder and the dispatch look the same bytes up in the same table. -/
theorem stepRunsDecodedInstruction : Obligations.StepRunsDecodedInstruction := by
  intro s a rest hram0 hram1 h
  refine ⟨(encodeDecodeRoundTrip _ a rest h).1, ?_⟩
  rcases decode_eq_insn h with ⟨b, bs, hbytes, hrule, -⟩ | ⟨x, hbytes, hrule, -⟩
  · cases hbytes
    rw [← firstByte_of_ram hram0] at hrule
    rw [if_neg (opcodeBytes_of_decodePrimary hrule).2]
    exact (stepRunsDispatchedInstruction s a.instr).1 (ne_prefix_of_decodePrimary hrule) hrule
  · obtain ⟨hfirst, hsecond, -⟩ : s.bus.mem.read s.pc.toNat = cbPrefix ∧ s.bus.mem.read (s.pc + 1).toNat = x ∧
        [s.bus.mem.read (s.pc + 2).toNat] = rest := by simpa using hbytes
    rw [← firstByte_of_ram hram0] at hfirst
    rw [← hsecond, ← secondByte_of_ram hram1] at hrule
    rw [if_pos (opcodeBytes_of_decodeCb hrule).2]
    exact (stepRunsDispatchedInstruction s a.instr).2 hfirst hrule

/-! ### The operand's bytes -/

/-- Behind a primary opcode the bytes at PC are those of the operand that decodes, which is in range. -/
theorem operandBytes_of_decoded {s : State} {rest : List Byte} {i : Instr} {operand : Operand} (hi : i.format ≠ .cb)
    (h : decode (bytesAtPc s) = .insn ⟨i, operand⟩ rest) :
    operand.inRange = true ∧
      [s.bus.mem.read (s.pc + 1).toNat, s.bus.mem.read (s.pc + 2).toNat] = operandBytes operand ++ rest := by
  obtain ⟨hwf, hbytes⟩ := encodeDecodeRoundTrip _ _ _ h
  refine ⟨(Bool.and_eq_true_iff.mp hwf).2, ?_⟩
  rcases (opcodeBytes_statement i).1 with ⟨b, hb, -⟩ | ⟨x, -, -, hcb⟩
  · rw [encode, hb] at hbytes
    exact (List.cons.inj hbytes).2
  · exact absurd hcb hi

section Decoded

variable {s : State} {rest : List Byte} {i : Instr}
  (hram0 : s.bus.isOracle s.pc.toNat = false) (hram1 : s.bus.isOracle (s.pc + 1).toNat = false)
  (hram2 : s.bus.isOracle (s.pc + 2).toNat = false)

include hram1 in
/-- The first byte a primary rule fetches is the one behind the opcode. -/
theorem answer_afterOpcodeFetch :
    (afterOpcodeFetch s).bus.answer (s.pc + 1).toNat = s.bus.mem.read (s.pc + 1).toNat :=
  (Bus.answer_afterRead hram1 _).trans (Bus.answer_of_ram hram1)

include hram2 in
/-- The second byte a primary rule fetches is the next one. -/
theorem answer_afterOperandFetch (addr : Nat) :
    ((afterOpcodeFetch s).bus.afterRead addr).answer (s.pc + 2).toNat = s.bus.mem.read (s.pc + 2).toNat := by
  have hram : (afterOpcodeFetch s).bus.isOracle (s.pc + 2).toNat = false := hram2
  rw [Bus.answer_afterRead hram, Bus.answer_of_ram hram]
  rfl

include hram0 hram1

/-- A primary instruction that decodes at PC is run with its one opcode byte fetched. -/
theorem step_of_decoded {operand : Operand} (hi : i.format ≠ .cb)
    (h : decode (bytesAtPc s) = .insn ⟨i, operand⟩ rest) : step s = exec i (afterOpcodeFetch s) := by
  rw [(stepRunsDecodedInstruction s _ rest hram0 hram1 h).2, if_neg hi]

omit hram0

/-- The byte the rule fetches is the decoded u8 (R62). -/
theorem answer_of_decoded_u8 {n : Nat} (hi : i.format ≠ .cb) (h : decode (bytesAtPc s) = .insn ⟨i, .u8 n⟩ rest) :
    (afterOpcodeFetch s).bus.answer (afterOpcodeFetch s).pc.toNat = BitVec.ofNat 8 n :=
  (answer_afterOpcodeFetch hram1).trans (List.cons.inj (operandBytes_of_decoded hi h).2).1

/-- The byte the rule fetches is that of the decoded offset (R63). -/
theorem answer_of_decoded_r8 {offset : Int} (hi : i.format ≠ .cb)
    (h : decode (bytesAtPc s) = .insn ⟨i, .r8 offset⟩ rest) :
    (afterOpcodeFetch s).bus.answer (afterOpcodeFetch s).pc.toNat = r8Byte offset :=
  (answer_afterOpcodeFetch hram1).trans (List.cons.inj (operandBytes_of_decoded hi h).2).1

include hram2

/-- The two bytes the rule fetches make the decoded u16, low byte first (R64). -/
theorem wordOfBytes_of_decoded_u16 {v : Nat} (hi : i.format ≠ .cb)
    (h : decode (bytesAtPc s) = .insn ⟨i, .u16 v⟩ rest) :
    wordOfBytes ((afterOpcodeFetch s).bus.answer (afterOpcodeFetch s).pc.toNat)
        (((afterOpcodeFetch s).bus.afterRead (afterOpcodeFetch s).pc.toNat).answer
          ((afterOpcodeFetch s).pc + 1).toNat) =
      BitVec.ofNat 16 v := by
  obtain ⟨hlo, hhi⟩ := List.cons.inj (operandBytes_of_decoded hi h).2
  have hpc : (afterOpcodeFetch s).pc + 1 = s.pc + 2 := word_succ_succ s.pc
  have hfirst := (answer_afterOpcodeFetch hram1).trans hlo
  have hsecond := (answer_afterOperandFetch hram2 (s.pc + 1).toNat).trans (List.cons.inj hhi).1
  rw [hpc]
  exact (congrArg₂ wordOfBytes hfirst hsecond).trans (wordOfBytes_lo_hi _)

/-- Below 0xFFFE the word read at PC, whose second address does not wrap, is the decoded u16 too (R64, R95, R142). -/
theorem callTarget_of_decoded {v : Nat} (hi : i.format ≠ .cb) (h : decode (bytesAtPc s) = .insn ⟨i, .u16 v⟩ rest)
    (hpc : s.pc ≠ 0xFFFE#16) : callTarget (afterOpcodeFetch s) = BitVec.ofNat 16 v := by
  have hsucc : (afterOpcodeFetch s).pc.toNat + 1 = ((afterOpcodeFetch s).pc + 1).toNat := by
    rw [afterOpcodeFetch]
    bv_omega
  rw [callTarget, hsucc]
  exact wordOfBytes_of_decoded_u16 hram1 hram2 hi h

include hram0

/-- A taken call that decodes at PC calls the decoded target. -/
theorem step_of_decoded_call {v : Nat} (hcall : callTaken i (afterOpcodeFetch s))
    (h : decode (bytesAtPc s) = .insn ⟨i, .u16 v⟩ rest) (hpc : s.pc ≠ 0xFFFE#16) (hsp : s.sp ≠ 0x0001#16) :
    ∃ t, step s = .next t ∧ t.pc = BitVec.ofNat 16 v := by
  have hi : i.format ≠ .cb := by rcases hcall with rfl | ⟨rfl, -⟩ <;> decide
  have htop : (afterOpcodeFetch s).pc ≠ 0xFFFF#16 := mt afterOpcodeFetch_pc_eq_top.mp hpc
  refine ⟨afterCall (afterOpcodeFetch s), ?_, callTarget_of_decoded hram1 hram2 hi h hpc⟩
  rw [step_of_decoded hram0 hram1 hi h, exec_of_callTaken hcall, call_of_ne htop hsp]

end Decoded

/-- Settles O10: each rule fetches the bytes of the operand that decodes. -/
theorem decodedOperandIsUsed : Obligations.DecodedOperandIsUsed := by
  intro s rest hram0 hram1 hram2
  refine ⟨fun n h => ?ldBU8, fun n h => ?ldCU8, fun n h => ?ldAU8, fun v h => ?ldDeU16, fun v h => ?ldHlU16,
    fun v h hpc => ?ldSpU16, fun offset h hz => ?jrNzR8, fun v h hpc hsp => ?callA16, fun v h hz hpc hsp => ?callZA16,
    fun n h hwf hram => ?ldhU8A⟩
  case ldBU8 =>
    exact ⟨_, (step_of_decoded hram0 hram1 (by decide) h).trans (exec_ldBU8 _),
      answer_of_decoded_u8 hram1 (by decide) h⟩
  case ldCU8 =>
    exact ⟨_, (step_of_decoded hram0 hram1 (by decide) h).trans (exec_ldCU8 _),
      answer_of_decoded_u8 hram1 (by decide) h⟩
  case ldAU8 =>
    exact ⟨_, (step_of_decoded hram0 hram1 (by decide) h).trans (exec_ldAU8 _),
      answer_of_decoded_u8 hram1 (by decide) h⟩
  case ldDeU16 =>
    exact ⟨_, (step_of_decoded hram0 hram1 (by decide) h).trans (exec_ldDeU16 _),
      wordOfBytes_of_decoded_u16 hram1 hram2 (by decide) h⟩
  case ldHlU16 =>
    exact ⟨_, (step_of_decoded hram0 hram1 (by decide) h).trans (exec_ldHlU16 _),
      wordOfBytes_of_decoded_u16 hram1 hram2 (by decide) h⟩
  case ldSpU16 =>
    have htop : (afterOpcodeFetch s).pc ≠ 0xFFFF#16 := mt afterOpcodeFetch_pc_eq_top.mp hpc
    exact ⟨_, (step_of_decoded hram0 hram1 (by decide) h).trans (exec_ldSpU16_of_ne htop),
      callTarget_of_decoded hram1 hram2 (by decide) h hpc⟩
  case jrNzR8 =>
    refine ⟨_, (step_of_decoded hram0 hram1 (by decide) h).trans (exec_jrNzR8 _), ?_⟩
    have hrange : -128 ≤ offset ∧ offset ≤ 127 := of_decide_eq_true (operandBytes_of_decoded (by decide) h).1
    have hz' : flagZ (afterOpcodeFetch s).f = false := hz
    simp only [hz', Bool.false_eq_true, if_false, answer_of_decoded_r8 hram1 (by decide) h,
      relativeTarget_r8Byte hrange]
    exact congrArg (· + _) (word_succ_succ s.pc)
  case callA16 => exact step_of_decoded_call hram0 hram1 hram2 (.inl rfl) h hpc hsp
  case callZA16 => exact step_of_decoded_call hram0 hram1 hram2 (.inr ⟨rfl, hz⟩) h hpc hsp
  case ldhU8A =>
    refine ⟨_, (step_of_decoded hram0 hram1 (by decide) h).trans (exec_ldhU8A _), ?_⟩
    have hn : n < 256 := of_decide_eq_true (operandBytes_of_decoded (by decide) h).1
    have haddr : highPage (BitVec.ofNat 8 n) = 0xFF00 + n := by
      rw [highPage, BitVec.toNat_ofNat, Nat.mod_eq_of_lt hn]
    have hstored : (0xFF00 + n, s.a) ∈ storedCells .ldhU8A (afterOpcodeFetch s) := by
      rw [storedCells, answer_of_decoded_u8 hram1 (by decide) h, haddr]
      exact List.mem_singleton_self _
    have hread := effect_answer_stored (s := afterOpcodeFetch s) hwf hstored hram
    rwa [Bus.answer_of_ram (by rw [effect_isOracle]; exact hram)] at hread

end Sys2Proof.Machine
end

section
/-! Bytes stored and read again (R49, R132, R144, R175): POP BC after a push or a call, and the next step's reads. -/

namespace Sys2Proof.Machine

/-- POP BC on a stack in RAM takes what RAM answers at SP and SP + 1. -/
theorem exec_popBc_of_ram {s : State} (hram : s.bus.isOracle (s.sp + 1).toNat = false) :
    exec .popBc s =
      .next { s with
        c := s.bus.answer s.sp.toNat
        b := s.bus.answer (s.sp + 1).toNat
        sp := s.sp + 2
        bus := (s.bus.afterRead s.sp.toNat).afterRead (s.sp + 1).toNat } := by
  rw [exec_popBc, Bus.answer_afterRead hram]

/-- After an instruction that lowers SP by two and stores a byte at each of the two addresses, POP BC takes the bytes
and restores SP. -/
theorem popBc_after_stores {i : Instr} {s : State} {lo hi : Byte} (hwf : s.bus.mem.wf = true)
    (hramHi : s.bus.isOracle (s.sp - 1).toNat = false) (hramLo : s.bus.isOracle (s.sp - 2).toNat = false)
    (hsp : (effect i s).sp = s.sp - 2) (hlo : ((s.sp - 2).toNat, lo) ∈ storedCells i s)
    (hhi : ((s.sp - 1).toNat, hi) ∈ storedCells i s) :
    ∃ u, exec .popBc (effect i s) = .next u ∧ u.c = lo ∧ u.b = hi ∧ u.sp = s.sp := by
  have hsucc : s.sp - 2 + 1 = s.sp - 1 := by bv_omega
  have hram : (effect i s).bus.isOracle ((effect i s).sp + 1).toNat = false := by
    rw [effect_isOracle, hsp, hsucc, hramHi]
  refine ⟨_, exec_popBc_of_ram hram, ?_, ?_, ?_⟩
  · rw [hsp]
    exact effect_answer_stored hwf hlo hramLo
  · rw [hsp, hsucc]
    exact effect_answer_stored hwf hhi hramHi
  · rw [hsp]
    exact BitVec.sub_add_cancel s.sp 2

/-- Settles O36: the push stores C at SP - 2 and B at SP - 1. -/
theorem pushPopRoundTrip : Obligations.PushPopRoundTrip := by
  intro s hwf hramHi hramLo
  have hcells : storedCells .pushBc s = [((s.sp - 1).toNat, s.b), ((s.sp - 2).toNat, s.c)] := by
    rw [storedCells, word_pred_pred]
  obtain ⟨u, hpop, hc, hb, hsp⟩ := popBc_after_stores (i := .pushBc) hwf hramHi hramLo rfl
    (hcells ▸ List.mem_cons_of_mem _ List.mem_cons_self) (hcells ▸ List.mem_cons_self)
  exact ⟨_, u, exec_pushBc s, rfl, hpop, hb, hc, hsp⟩

/-- Settles O37: the call stores the return address's low byte at SP - 2 and its high byte at SP - 1. -/
theorem popTakesReturnAddress : Obligations.PopTakesReturnAddress := by
  intro s hwf hpc hsp hramHi hramLo
  have hsucc : (s.sp - 1).toNat = (s.sp - 2).toNat + 1 := by bv_omega
  have hcells : storedCells .callA16 s =
      [((s.sp - 2).toNat, loByte (s.pc + 2)), ((s.sp - 1).toNat, hiByte (s.pc + 2))] := by
    rw [storedCells, callCells, hsucc]
  obtain ⟨u, hpop, hc, hb, hsp'⟩ := popBc_after_stores (i := .callA16) hwf hramHi hramLo rfl
    (hcells ▸ List.mem_cons_self) (hcells ▸ List.mem_cons_of_mem _ List.mem_cons_self)
  exact ⟨_, u, call_of_ne hpc hsp, hpop, by rw [hc, hb, wordOfBytes_lo_hi], hsp'⟩

/-- Settles O56: the cells of `storedCells` are what RAM answers after the step, and LD (HL),A stores A at HL. -/
theorem storeSeenByNextFetch : Obligations.StoreSeenByNextFetch := by
  constructor
  case left =>
    intro i s t hd h hwf addr v hcell hram
    rw [step_of_dispatched hd] at h
    obtain ⟨-, rfl⟩ := exec_next.mp h
    have hanswer : (effect i (afterFetch s)).bus.answer addr = v :=
      effect_answer_stored (by simpa using hwf) hcell (by simpa [Bus.isOracle] using hram)
    exact ⟨hanswer, fun hpc => by rw [firstByte, hpc, hanswer]⟩
  case right =>
    intro s hfirst hhl hwf hram
    have hrule : decodePrimary 0x77#8 = some .ldHlA := by decide
    have hd : dispatched s = some .ldHlA := (dispatched_iff_firstByte hrule s).mpr hfirst
    have hfetch : afterFetch s = afterOpcodeFetch s :=
      afterFetch_of_ne_prefix (hfirst ▸ ne_prefix_of_decodePrimary hrule)
    have hstep : step s = .next (effect .ldHlA (afterOpcodeFetch s)) := by
      rw [step_of_dispatched hd, hfetch]
      exact exec_ldHlA _
    refine ⟨_, hstep, hhl.symm, ?_⟩
    have hanswer : (effect .ldHlA (afterOpcodeFetch s)).bus.answer s.hl.toNat = s.a :=
      effect_answer_stored (s := afterOpcodeFetch s) hwf (List.mem_singleton_self _) hram
    rw [hhl] at hanswer
    exact hanswer

end Sys2Proof.Machine
end

section
/-! RAM and the history of accesses (R30, R49): on a bus that is all RAM, what an instruction and a step do is the same
under every history. -/

namespace Sys2Proof.Machine

section AllRam

variable {s : State} (hram : s.bus.oracleAt = []) (history : List BusAccess)
include hram

/-- Where all is RAM, no address is BUS_ORACLE's. -/
theorem isOracle_of_allRam (addr : Nat) : s.bus.isOracle addr = false := by simp [Bus.isOracle, hram]

/-- An answer does not depend on the history. -/
theorem answer_withHistory (addr : Nat) : (s.withHistory history).bus.answer addr = s.bus.answer addr := by
  have h := isOracle_of_allRam hram addr
  rw [Bus.answer_of_ram h]
  exact Bus.answer_of_ram h

/-- Nor does one after a read. -/
theorem answer_afterRead_withHistory (read addr : Nat) :
    ((s.withHistory history).bus.afterRead read).answer addr = (s.bus.afterRead read).answer addr := by
  have h := isOracle_of_allRam hram addr
  rw [Bus.answer_afterRead h, Bus.answer_afterRead (bus := (s.withHistory history).bus) h, answer_withHistory hram]

theorem callTarget_withHistory : callTarget (s.withHistory history) = callTarget s :=
  congrArg₂ wordOfBytes (answer_withHistory hram history _) (answer_afterRead_withHistory hram history _ _)

theorem afterCall_withHistory :
    (afterCall (s.withHistory history)).withHistory [] = (afterCall s).withHistory [] := by
  rw [afterCall, callTarget_withHistory hram]
  rfl

/-- An instruction that completes leaves the same but for the history. -/
theorem effect_withHistory (i : Instr) :
    (effect i (s.withHistory history)).withHistory [] = (effect i s).withHistory [] := by
  cases i
  case ldBU8 | ldCU8 | ldAU8 | ldADe | jrNzR8 | ldhU8A =>
    simp only [effect, answer_withHistory hram]
    rfl
  case ldDeU16 | ldHlU16 | popBc =>
    simp only [effect, answer_withHistory hram, answer_afterRead_withHistory hram]
    rfl
  case ldSpU16 =>
    simp only [effect, callTarget_withHistory hram]
    rfl
  case callA16 => exact afterCall_withHistory hram history
  case callZA16 =>
    have hz : flagZ (s.withHistory history).f = flagZ s.f := rfl
    simp only [effect, hz]
    split
    · exact afterCall_withHistory hram history
    · rfl
  all_goals rfl

/-- An instruction ends the same but for the history: whether it completes does not depend on the bus. -/
theorem forgetHistory_exec (i : Instr) :
    forgetHistory (exec i (s.withHistory history)) = forgetHistory (exec i s) := by
  rcases exec_cases i s with ⟨hrange, h⟩ | ⟨hword, hpc, h⟩ | ⟨hcall, hpc, hsp, h⟩ <;> rw [h]
  · rw [exec_of_inRange (s := s.withHistory history) hrange]
    exact congrArg Host.Outcome.next (effect_withHistory hram history i)
  · rw [exec_of_operand_top (s := s.withHistory history) hword hpc]
    rfl
  · rw [exec_of_push_one (s := s.withHistory history) hcall hpc hsp]
    rfl

theorem firstByte_withHistory : firstByte (s.withHistory history) = firstByte s := answer_withHistory hram history _

theorem secondByte_withHistory : secondByte (s.withHistory history) = secondByte s :=
  answer_afterRead_withHistory hram history _ _

theorem dispatched_withHistory : dispatched (s.withHistory history) = dispatched s := by
  rw [dispatched, firstByte_withHistory hram, secondByte_withHistory hram, dispatched]

/-- The fetched state is the same but for the history. -/
theorem afterFetch_withHistory :
    ∃ fetched, afterFetch (s.withHistory history) = (afterFetch s).withHistory fetched := by
  unfold afterFetch
  rw [firstByte_withHistory hram]
  split
  · exact ⟨_, rfl⟩
  · exact ⟨_, rfl⟩

end AllRam

/-- Settles O57: the same rule is dispatched, on states that are the same but for the history. -/
theorem ramStepIgnoresHistory : Obligations.RamStepIgnoresHistory := by
  intro s history hram
  have hdispatched := dispatched_withHistory hram history
  obtain ⟨fetched, hfetched⟩ := afterFetch_withHistory hram history
  cases hd : dispatched s with
  | none =>
    rw [step_of_not_dispatched hd, step_of_not_dispatched (hdispatched.trans hd), afterReport,
      firstByte_withHistory hram, secondByte_withHistory hram, hfetched]
    rfl
  | some i =>
    rw [step_of_dispatched hd, step_of_dispatched (hdispatched.trans hd), hfetched]
    exact forgetHistory_exec (by simpa using hram) fetched i

end Sys2Proof.Machine
end

section
/-! The driver (R155, D8): one lemma for a safe step under either policy, and inductions over the number of steps. -/

namespace Sys2Proof.Machine

/-- A safe step is taken by either driver. -/
theorem drive_of_safe {s t : State} (h : step s = .next t) (hok : t.status = .ok) (policy : DriverOnUnimplemented)
    (n : Nat) : drive policy (n + 1) s = drive policy n t := by
  cases policy <;> simp only [drive, h, hok]

/-- Settles O60: a safe step is taken by either driver, and the rest of the run is safe. -/
theorem safeRunsNeedNoDriver : Obligations.SafeRunsNeedNoDriver := by
  intro n
  induction n with
  | zero => exact fun s _ => ⟨s, fun _ => rfl⟩
  | succ n ih =>
    rintro s ⟨t, hstep, hok, hsafe⟩
    obtain ⟨u, hu⟩ := ih t hsafe
    exact ⟨u, fun policy => (drive_of_safe hstep hok policy n).trans (hu policy)⟩

/-- Settles O58: the safe steps are taken; the report then ends the run, whatever fuel is left. -/
theorem haltingDriverStops : Obligations.HaltingDriverStops := by
  intro n
  induction n with
  | zero =>
    intro m s t u table byte pc _ hran hstep hreport
    cases hran
    rw [Nat.zero_add, Nat.add_comm]
    simp only [drive, hstep, hreport]
  | succ n ih =>
    rintro m s t u table byte pc ⟨s', hs', hok, hsafe⟩ hran hstep hreport
    rw [drive_of_safe hs' hok] at hran
    rw [show n + 1 + 1 + m = n + 1 + m + 1 by omega, drive_of_safe hs' hok]
    exact ih m s' t u table byte pc hsafe hran hstep hreport

/-- Settles O59: under `carryOn` both runs take the same step and go on from the same state. -/
theorem carryingOnDriverIsRun : Obligations.CarryingOnDriverIsRun := by
  intro n
  induction n with
  | zero => exact fun s => rfl
  | succ n ih =>
    intro s
    have hcore : Sys2Proof.core.step s = step s := rfl
    cases h : step s with
    | next t =>
      simp only [drive, Host.Core.run, hcore.trans h, h]
      exact ih t
    | fault r => simp only [drive, Host.Core.run, hcore.trans h, h]
    | refused r => simp only [drive, Host.Core.run, hcore.trans h, h]

end Sys2Proof.Machine
end
